-- ==== Sys2Proof/Word.lean ====
section
/-! DEFINITION. Word.lean: the quantities of SHA1-CORE (00_scope.md R3 and section 5).
Every one of them is unsigned; bit 0 is the least significant bit. -/

namespace Sys2Proof

/-- A 32-bit word: a word of the running state, of the message schedule, a command word (R3, R46). -/
abbrev Word := BitVec 32

/-- A byte, 8 bits, in all three byte spaces (R30). -/
abbrev Byte := BitVec 8

/-- The 64-bit bit-length counter's type (R3, R18). -/
abbrev DWord := BitVec 64

end Sys2Proof
end

