-- ==== Sys2Proof/Syntax.lean ====
section
/-! DEFINITION. Syntax.lean: the five commands (30_encoding.md R47), one constructor per row of spec/opcode_table.json. -/

namespace Sys2Proof

/-- A command of the engine. The payload of `INGEST` is no operand here: it is the next `len` bytes of `DIN` (R49). -/
inductive Instr where
  /-- `INIT` (R65). -/
  | init
  /-- `INGEST` with the payload length of the `LEN` field (R48, R66). -/
  | ingest (len : Nat)
  /-- `DIGEST` (R82). -/
  | digest
  /-- `DIGEST_HEX` (R89). -/
  | digestHex
  /-- `DIGEST_HEX_UC` (R90). -/
  | digestHexUc
deriving DecidableEq, Repr

end Sys2Proof
end

