-- ==== Sys2Proof/Decode.lean ====
section
/-! DEFINITION. Decode.lean: command words to commands (30_encoding.md R46 to R51) and back. -/

namespace Sys2Proof

/-- Why a command word is illegal (R50), named after the field that makes it so. -/
inductive IllegalWord where
  /-- The `ZERO` field, bits 23:16, is not 0x00. -/
  | zeroField
  /-- `OPC`, bits 31:24, is 0x00 or one of 0x06 to 0xFF. -/
  | opcode
  /-- `LEN`, bits 15:0, is not 0x0000 on a command without a payload. -/
  | lenField
deriving DecidableEq, Repr

/-- `OPC`, bits 31:24 of a command word (R46). -/
def opcField (w : Word) : BitVec 8 := w.extractLsb' 24 8

/-- `ZERO`, bits 23:16 of a command word (R46). -/
def zeroField (w : Word) : BitVec 8 := w.extractLsb' 16 8

/-- `LEN`, bits 15:0 of a command word (R46). -/
def lenField (w : Word) : BitVec 16 := w.extractLsb' 0 16

/-- A command without a payload: legal only with an all-zero `LEN` field (R50). -/
def decodeBare (w : Word) (i : Instr) : Except IllegalWord Instr :=
  if lenField w = 0 then .ok i else .error .lenField

/-- `decode` of R51, total on all 2^32 words; an illegal word is rejected by the name of the offending field. -/
def decode (w : Word) : Except IllegalWord Instr :=
  if zeroField w ≠ 0 then .error .zeroField
  else if opcField w = 0x02 then .ok (.ingest (lenField w).toNat)
  else if opcField w = 0x01 then decodeBare w .init
  else if opcField w = 0x03 then decodeBare w .digest
  else if opcField w = 0x04 then decodeBare w .digestHex
  else if opcField w = 0x05 then decodeBare w .digestHexUc
  else .error .opcode

/-- `encode` of R51, from the word patterns of R47. -/
def encode : Instr → Word
  | .init => 0x01000000
  | .ingest len => 0x02000000 + BitVec.ofNat 32 len
  | .digest => 0x03000000
  | .digestHex => 0x04000000
  | .digestHexUc => 0x05000000

/-- The word whose bits the opcode table numbers: bit 0 is the least significant bit of the one 32-bit word (R46);
every bit above the row's `nbits` is 0. -/
def tableWord (nbits w : Nat) : Word := BitVec.ofNat 32 (w % 2 ^ nbits)

/-- The command the decoder reads from an opcode-table word; none where it refuses. -/
def decodeTableWord (nbits w : Nat) : Option Instr := (decode (tableWord nbits w)).toOption

end Sys2Proof
end

