-- ==== Sys2Proof/Machine/State.lean ====
section
/-! DEFINITION. State.lean: all the state the spec gives SHA1-CORE (10_state.md R13 to R22, 20_memory.md R30 to R32),
the host's side of its ports, the named stops, and the state after reset (70_reset_and_hazards.md R112). -/

namespace Sys2Proof.Machine

/-- The running state `H[0..4]`: exactly five 32-bit words (R13). -/
structure RunningState where
  h0 : Word
  h1 : Word
  h2 : Word
  h3 : Word
  h4 : Word
deriving DecidableEq, Repr

/-- The algorithm's five initial constants, in order (R13). -/
def RunningState.initial : RunningState :=
  { h0 := 0x67452301, h1 := 0xEFCDAB89, h2 := 0x98BADCFE, h3 := 0x10325476, h4 := 0xC3D2E1F0 }

/-- `BUF`, the engine's only storage (R16, R30): the indices that hold a value with the byte each holds, indices
strictly rising (`Memory.wf`). An index that is not listed holds NO VALUE (R16, R27; log 5). -/
abbrev Memory := List Host.Cell

/-- `PHASE`, the lifecycle bit (R19). -/
inductive Phase where
  /-- 0: from creation until finalization. -/
  | absorb
  /-- 1: from finalization until the next `INIT` or reset. -/
  | done
deriving DecidableEq, Repr

/-- `FCODE` (R20, R100). The value 3 is never produced, so it has no constructor (U12; log 21). -/
inductive FaultCode where
  /-- 0: no fault. -/
  | none
  /-- 1: `IllegalCommand` (R101). -/
  | illegalCommand
  /-- 2: `UsageViolation` (R102). -/
  | usageViolation
deriving DecidableEq, Repr

/-- One act of the host on the engine's input ports (R31, R46, R112). -/
inductive HostAction where
  /-- Present a command word on `CMD` (R46). -/
  | issue (word : Word)
  /-- Append bytes at the tail of `DIN` (R31). -/
  | supply (bytes : List Byte)
  /-- The `RESET` event (R112). -/
  | reset
deriving DecidableEq, Repr

/-- Why a step has no next state. These are NOT the spec's two faults: `IllegalCommand` and `UsageViolation` set
`FAULT` and `FCODE` and the machine goes on (R105), so each of them is a next state (log 8). -/
inductive Fault where
  /-- Raised by `INGEST` with `LEN` greater than the number of bytes on `DIN`: the command has no step (R107). A step
  of the machine ends so only when the host does nothing more. Safe: nothing happens where the spec says nothing
  happens (log 2). -/
  | stuckPayloadShort
  /-- Raised by an access to an index of `BUF` outside 0 to 63: "No other index exists" (00_scope.md section 5).
  Only states with `CURLEN` above 63 meet it, which no run reaches (R17, R24). Safe (log 6). -/
  | bufIndex
  /-- Raised by `COMPRESS` when a byte of its block holds no value: the read 93 U8 lets a model fault on. No run meets
  it (R24). Safe (log 5). -/
  | bufUnwritten
deriving DecidableEq, Repr

/-- What the model gives no meaning to. -/
inductive Refusal where
  /-- Raised by a dispatch arm whose command has no meaning yet. Safe. No arm is left so. -/
  | notModelled (mnemonic : String)
  /-- Raised by the host presenting a word while an earlier one is still pending: "a model should refuse to represent
  them" (R116, U14). Safe (log 4). -/
  | overlappingCommand
deriving DecidableEq, Repr

/-- The machine: the engine's state, the two streams, and the host's side of the ports. -/
structure State where
  /-- `H[0..4]` (R13). -/
  h : RunningState
  /-- `BUF[0..63]` (R16). -/
  buf : Memory
  /-- `CURLEN`, 7 bits (R17). -/
  curlen : BitVec 7
  /-- `LENGTH` (R18). -/
  length : DWord
  /-- `PHASE` (R19). -/
  phase : Phase
  /-- `FAULT` (R20). -/
  fault : Bool
  /-- `FCODE` (R20). -/
  fcode : FaultCode
  /-- `DIN`, head first (R31). -/
  din : List Byte
  /-- `DOUT`, everything emitted since reset, in order (R32, R45). -/
  dout : List Byte
  /-- The word standing on `CMD` and not yet taken (R46, R107). The model's own field (log 1). -/
  cmd : Option Word
  /-- What the host does next, oldest first. The model's own field (log 1). -/
  host : List HostAction
  /-- The host's command index `CP` (R22): the index of the command on `CMD`, or of the next one. Host-side (log 9). -/
  cp : Nat
deriving DecidableEq, Repr

/-- The machine right after reset (R27, R112). -/
def State.reset : State :=
  { h := RunningState.initial
    buf := []
    curlen := 0
    length := 0
    phase := .absorb
    fault := false
    fcode := .none
    din := []
    dout := []
    cmd := none
    host := []
    cp := 0 }

end Sys2Proof.Machine
end

