-- ==== Sys2Proof/Machine/Flags.lean ====
section
/-! DEFINITION. Flags.lean: the status register and the conditions the algorithms test (10_state.md R20, R23).
The engine has no arithmetic flags: PHASE, FAULT and FCODE are all its flag-like state. -/

namespace Sys2Proof.Machine

/-- R19: `ABSORB` is 0, `DONE` is 1. -/
def Phase.bit : Phase → BitVec 1
  | .absorb => 0
  | .done => 1

/-- R100: the codes of `FCODE`. -/
def FaultCode.bits : FaultCode → BitVec 2
  | .none => 0
  | .illegalCommand => 1
  | .usageViolation => 2

/-- R20: the `STATUS` register as the host reads it: bits 7:4 read 0, then `FCODE`, `FAULT`, `PHASE`. -/
def State.status (s : State) : BitVec 8 := (0 : BitVec 4) ++ s.fcode.bits ++ BitVec.ofBool s.fault ++ s.phase.bit

/-- R67's condition: the buffer is empty and a whole block of input remains. -/
def State.directPathReady (s : State) (remaining : Nat) : Bool := s.curlen == 0 && decide (64 ≤ remaining)

/-- R69's condition: the buffer is full. -/
def State.bufferFull (s : State) : Bool := s.curlen == 64

/-- R76's condition, strict: the count after the terminator exceeds 56. -/
def State.mustSpill (s : State) : Bool := decide (56 < s.curlen.toNat)

end Sys2Proof.Machine
end

