-- ==== Sys2Proof/Config.lean ====
section
/-! DEFINITION. Config.lean: what is fixed for the machine (00_scope.md R3, 10_state.md R21).
The spec leaves no parameter open (00_scope.md section 4) and draws no free value (R12), so nothing here is opaque. -/

namespace Sys2Proof.Config

/-- `DIGEST_LEN`: the digest length in bytes, a read-only constant the host can read (R3, R21). -/
def digestLen : Nat := 20

/-- `BLOCK_SIZE`: the block size in bytes, a read-only constant the host can read (R3, R21). -/
def blockSize : Nat := 64

/-- The largest value of the 16-bit `LEN` field of a command word (R48). -/
def maxLen : Nat := 65535

end Sys2Proof.Config
end

