-- ==== Sys2Proof/Machine/Prims.lean ====
section
/-! DEFINITION. Prims.lean: the pseudocode primitives (00_scope.md R5 to R11). -/

namespace Sys2Proof.Machine

/-- R5: addition modulo 2^32, silent on overflow. -/
def add32 (x y : Word) : Word := x + y

/-- R6: rotation toward the most significant end, for 0 < n < 32 (the engine uses 1, 5 and 30). PRESUMED by the spec
itself (93 G1; log 11). -/
def rotl32 (x : Word) (n : Nat) : Word := (x <<< n) ||| (x >>> (32 - n))

/-- R8: four bytes to a word, most significant byte first. -/
def load32be (b0 b1 b2 b3 : Byte) : Word := b0 ++ b1 ++ b2 ++ b3

/-- R9: a word as four bytes, most significant byte first. -/
def store32be (w : Word) : List Byte :=
  [w.extractLsb' 24 8, w.extractLsb' 16 8, w.extractLsb' 8 8, w.extractLsb' 0 8]

/-- R10: a 64-bit value as eight bytes, most significant byte first. -/
def store64be (v : DWord) : List Byte :=
  [v.extractLsb' 56 8, v.extractLsb' 48 8, v.extractLsb' 40 8, v.extractLsb' 32 8,
   v.extractLsb' 24 8, v.extractLsb' 16 8, v.extractLsb' 8 8, v.extractLsb' 0 8]

/-- R11: addition modulo 2^64, silent on overflow. -/
def add64 (x y : DWord) : DWord := x + y

end Sys2Proof.Machine
end

