-- ==== Sys2Proof/Machine/Compress.lean ====
section
/-! DEFINITION. Compress.lean: the Compression Core (40_compress.md R55 to R64), a pure function of the running state
and one 64-byte block. Schedule and working variables are local values (R14, R15; log 12). -/

namespace Sys2Proof.Machine

/-- R56, step 1: the block's words, each from four consecutive bytes, big-endian (16 words for 64 bytes). -/
def loadWords : List Byte → List Word
  | b0 :: b1 :: b2 :: b3 :: rest => load32be b0 b1 b2 b3 :: loadWords rest
  | _ => []

/-- R57: `W[i]` from the words `W[0..i)`, where `i` is how many there are. -/
def nextScheduleWord (w : List Word) : Word :=
  rotl32 (w.getD (w.length - 3) 0 ^^^ w.getD (w.length - 8) 0 ^^^ w.getD (w.length - 14) 0 ^^^ w.getD (w.length - 16) 0) 1

/-- R57, step 2: `n` further words, in ascending order. -/
def expandSchedule : Nat → List Word → List Word
  | 0, w => w
  | n + 1, w => expandSchedule n (w ++ [nextScheduleWord w])

/-- The message schedule `W[0..79]` of a 64-byte block (R15, R56, R57). -/
def schedule (block : List Byte) : List Word := expandSchedule 64 (loadWords block)

/-- R59: the mixing function of round `i`. -/
def mix (i : Nat) (b c d : Word) : Word :=
  if i < 20 then d ^^^ (b &&& (c ^^^ d))
  else if i < 40 then b ^^^ c ^^^ d
  else if i < 60 then (b &&& c) ||| (d &&& (b ||| c))
  else b ^^^ c ^^^ d

/-- R60: the additive constant of round `i`. -/
def roundConstant (i : Nat) : Word :=
  if i < 20 then 0x5A827999
  else if i < 40 then 0x6ED9EBA1
  else if i < 60 then 0x8F1BBCDC
  else 0xCA62C1D6

/-- The working variables `a, b, c, d, e` (R14). -/
structure Working where
  a : Word
  b : Word
  c : Word
  d : Word
  e : Word
deriving DecidableEq, Repr

/-- R58, step 3: the working variables start as a copy of the running state. -/
def startWorking (h : RunningState) : Working := { a := h.h0, b := h.h1, c := h.h2, d := h.h3, e := h.h4 }

/-- R61: round `i` with the schedule word `w`; all right-hand sides use the values from before the round. -/
def compressRound (i : Nat) (w : Word) (v : Working) : Working :=
  { a := add32 (add32 (add32 (add32 (rotl32 v.a 5) (mix i v.b v.c v.d)) v.e) w) (roundConstant i)
    b := v.a
    c := rotl32 v.b 30
    d := v.c
    e := v.d }

/-- R61, step 4: the rounds from `i` on, one schedule word each. -/
def compressRounds : Nat → List Word → Working → Working
  | _, [], v => v
  | i, w :: ws, v => compressRounds (i + 1) ws (compressRound i w v)

/-- R62, step 5: the feed-forward. -/
def feedForward (h : RunningState) (v : Working) : RunningState :=
  { h0 := add32 h.h0 v.a
    h1 := add32 h.h1 v.b
    h2 := add32 h.h2 v.c
    h3 := add32 h.h3 v.d
    h4 := add32 h.h4 v.e }

/-- R63: `compress : (Word32^5, Byte^64) -> Word32^5`. Irreducible, so that no proof runs 80 rounds on symbols by accident;
the kernel still evaluates it. -/
@[irreducible] def compress (h : RunningState) (block : List Byte) : RunningState :=
  feedForward h (compressRounds 0 (schedule block) (startWorking h))

end Sys2Proof.Machine
end

