-- ==== Sys2Proof/Machine/Ops.lean ====
section
/-! DEFINITION. Ops.lean: the shared operations: access to BUF and the streams, taking a fault, reset, the admission of
a command (20_memory.md, 60_exceptions.md R102 to R106, 70_reset_and_hazards.md R112). -/

namespace Sys2Proof.Machine

/-! ### BUF -/

/-- `MemRead(BUF, i, 1)` (00_scope.md section 5): none where the byte holds no value (R16). -/
def Memory.read (i : Nat) : Memory → Option Byte
  | [] => none
  | (a, v) :: rest => if a = i then some v else Memory.read i rest

/-- `MemWrite(BUF, i, 1, v)`: the list stays sorted by index. -/
def Memory.write (i : Nat) (v : Byte) : Memory → Memory
  | [] => [(i, v)]
  | (a, u) :: rest =>
    if i < a then (i, v) :: (a, u) :: rest
    else if i = a then (i, v) :: rest
    else (a, u) :: Memory.write i v rest

/-- Consecutive byte writes from index `i` up, in ascending order. -/
def Memory.writeAll (i : Nat) : List Byte → Memory → Memory
  | [], m => m
  | v :: vs, m => Memory.writeAll (i + 1) vs (Memory.write i v m)

/-- Stores `vs` at the indices `i`, `i + 1`, ...; an index above 63 does not exist (00_scope.md section 5; log 6). -/
def Memory.store (i : Nat) (vs : List Byte) (m : Memory) : Except Fault Memory :=
  if i + vs.length ≤ Config.blockSize then .ok (Memory.writeAll i vs m) else .error .bufIndex

/-- The `n` bytes from index `i` up; none if one of them holds no value. -/
def Memory.readList : Nat → Nat → Memory → Option (List Byte)
  | 0, _, _ => some []
  | n + 1, i, m =>
    match Memory.read i m, Memory.readList n (i + 1) m with
    | some v, some vs => some (v :: vs)
    | _, _ => none

/-- The canonical form of `BUF`: indices strictly rising from `lo` on, all of them below 64. -/
def Memory.wfFrom (lo : Nat) : Memory → Bool
  | [] => true
  | (a, _) :: rest => decide (lo ≤ a) && decide (a < Config.blockSize) && Memory.wfFrom (a + 1) rest

/-- The canonical form of `BUF`: indices strictly rising and in range. An unlisted index holds no value, so no listed
byte can equal what an unlisted index reads as. -/
def Memory.wf (m : Memory) : Bool := Memory.wfFrom 0 m

/-! ### The engine's registers and streams -/

/-- `COMPRESS(block)`: reads and writes `H` only (R55, R63). -/
def State.compressBlock (block : List Byte) (s : State) : State := { s with h := compress s.h block }

/-- `COMPRESS(BUF[0 .. 64))`: reads all 64 bytes of `BUF` and does not write it (R64 item 4); a byte that holds no
value is a fault (U8; log 5). -/
def State.compressBuf (s : State) : Except Fault State :=
  match Memory.readList Config.blockSize 0 s.buf with
  | some block => .ok (s.compressBlock block)
  | none => .error .bufUnwritten

/-- `LENGTH <- add64(LENGTH, n)` (R11, R18). -/
def State.addLength (n : DWord) (s : State) : State := { s with length := add64 s.length n }

/-- `CURLEN <- n`, 7 bits (R17). -/
def State.setCurlen (n : BitVec 7) (s : State) : State := { s with curlen := n }

/-- Writes `vs` into `BUF` from index `CURLEN` up and advances `CURLEN` past them (R69, R75 to R77). -/
def State.appendBuf (vs : List Byte) (s : State) : Except Fault State :=
  match Memory.store s.curlen.toNat vs s.buf with
  | .ok m => .ok { s with buf := m, curlen := s.curlen + BitVec.ofNat 7 vs.length }
  | .error f => .error f

/-- `DOUT.emit(bytes)` (R32). -/
def State.emit (bytes : List Byte) (s : State) : State := { s with dout := s.dout ++ bytes }

/-- A fresh instance in place (R65, R112): `H`, `CURLEN`, `LENGTH`, `PHASE` at their created values, `BUF` unwritten. -/
def State.freshInstance (s : State) : State :=
  { s with h := RunningState.initial, curlen := 0, length := 0, phase := .absorb, buf := [] }

/-! ### Faults and reset -/

/-- Fault entry `raise X` (R105): sets `FAULT` and `FCODE` and nothing else. -/
def State.raise (code : FaultCode) (s : State) : State := { s with fault := true, fcode := code }

/-- `RESET` (R112), the only way out of a fault (R106): a fresh instance, the fault cleared, both streams emptied, `CP`
back to 0. A word waiting on `CMD` is withdrawn (DEDUCED, log 7); what the host does later is its own. -/
def State.resetEngine (s : State) : State :=
  { s.freshInstance with fault := false, fcode := .none, din := [], dout := [], cmd := none, cp := 0 }

/-! ### Admission -/

/-- An outcome from a computation that can stop with a fault. -/
def outcomeOf : Except Fault State → Host.Outcome State Fault Refusal
  | .ok s => .next s
  | .error f => .fault f

/-- Refusal (R103): a faulted engine refuses a command; nothing changes. -/
def unlessFaulted (s : State) (body : Host.Outcome State Fault Refusal) : Host.Outcome State Fault Refusal :=
  if s.fault then .next s else body

/-- The admission of `INGEST` and the finalizing commands (R102, R103, R104), in the order the spec fixes: a faulted
engine refuses, a command in phase `DONE` raises `UsageViolation`, else the command runs. -/
def admitted (s : State) (body : Except Fault State) : Host.Outcome State Fault Refusal :=
  unlessFaulted s (if s.phase = .done then .next (s.raise .usageViolation) else outcomeOf body)

end Sys2Proof.Machine
end

