-- ==== Sys2Proof/Machine/Operands.lean ====
section
/-! DEFINITION. Operands.lean: the one operand form of the engine, the payload span of `INGEST` (30_encoding.md R46,
R48, R49; 20_memory.md R31). The boolean of TO_HEX is carried by the choice of opcode (R46). -/

namespace Sys2Proof.Machine

/-- `DIN.take(n)` (R31): the first `n` bytes of `DIN`, in order, and the state without them; with fewer than `n` bytes on
`DIN` the command is stuck and nothing is taken (R107). -/
def State.takePayload (n : Nat) (s : State) : Except Fault (List Byte × State) :=
  if s.din.length < n then .error .stuckPayloadShort
  else .ok (s.din.take n, { s with din := s.din.drop n })

end Sys2Proof.Machine
end

