-- ==== Sys2Proof/Machine/Accumulator.lean ====
section
/-! DEFINITION. Accumulator.lean: the Stream Accumulator, commands `INIT` and `INGEST` (41_accumulator.md R65 to R72). -/

namespace Sys2Proof.Machine

/-- `INIT` (R65): legal in both phases of a non-faulted engine; `DIN`, `DOUT`, `FAULT` and `FCODE` are not touched. -/
def execInit (s : State) : Host.Outcome State Fault Refusal := unlessFaulted s (.next s.freshInstance)

/-- R68, the direct path: one block compressed straight from the input; `BUF` and `CURLEN` are not touched. -/
def directPath (block : List Byte) (s : State) : State := (s.compressBlock block).addLength 512

/-- R69's end: a full buffer is compressed, `LENGTH` grows by 512 and `CURLEN` returns to 0. -/
def flushIfFull (s : State) : Except Fault State :=
  if s.bufferFull then
    match s.compressBuf with
    | .ok t => .ok ((t.addLength 512).setCurlen 0)
    | .error f => .error f
  else .ok s

/-- R69: how many input bytes the buffered path copies. -/
def bufferedCount (remaining : Nat) (s : State) : Nat := min remaining (64 - s.curlen.toNat)

/-- R69, the buffered path: the bytes that fit go into `BUF`; a buffer that becomes full is compressed. -/
def bufferedPath (data : List Byte) (s : State) : Except Fault State :=
  match s.appendBuf (data.take (bufferedCount data.length s)) with
  | .ok t => flushIfFull t
  | .error f => .error f

/-- R67, the loop of `INGEST` over the unconsumed input, the test made afresh at every iteration. The fuel bounds the
iterations: each but a first one with `CURLEN` = 64 consumes input (R67), so `data.length + 1` is enough and the arm
without fuel is never reached. -/
def ingestLoop : Nat → List Byte → State → Except Fault State
  | _, [], s => .ok s
  | 0, _ :: _, _ => .error .bufIndex
  | fuel + 1, b :: bs, s =>
    if s.directPathReady (b :: bs).length then
      ingestLoop fuel ((b :: bs).drop 64) (directPath ((b :: bs).take 64) s)
    else
      match bufferedPath (b :: bs) s with
      | .ok t => ingestLoop fuel ((b :: bs).drop (bufferedCount (b :: bs).length s)) t
      | .error f => .error f

/-- The body of `INGEST` (R66, R67): the payload is taken from `DIN` before any state changes (R70 item 9). -/
def ingestBody (len : Nat) (s : State) : Except Fault State :=
  match s.takePayload len with
  | .ok (data, t) => ingestLoop (data.length + 1) data t
  | .error f => .error f

/-- `INGEST` (R66): the admission of R104, then the loop of R67. -/
def execIngest (len : Nat) (s : State) : Host.Outcome State Fault Refusal := admitted s (ingestBody len s)

end Sys2Proof.Machine
end

