-- ==== Sys2Proof/Machine/Finalizer.lean ====
section
/-! DEFINITION. Finalizer.lean: the procedure FINALIZE and the command `DIGEST` (42_finalizer.md R73 to R85). -/

namespace Sys2Proof.Machine

/-- R74, step 1: the buffered bytes are counted into `LENGTH`. -/
def countTail (s : State) : State := s.addLength (BitVec.ofNat 64 (s.curlen.toNat * 8))

/-- R75, step 2: the terminator byte. -/
def appendTerminator (s : State) : Except Fault State := s.appendBuf [0x80]

/-- The zero fills of R76 and R77: zero bytes from `CURLEN` up to `limit`, `CURLEN` following (D28). -/
def zeroFill (limit : Nat) (s : State) : Except Fault State :=
  s.appendBuf (List.replicate (limit - s.curlen.toNat) 0x00)

/-- R76, step 3: with more than 56 bytes in the buffer the block is filled and compressed and the buffer starts anew.
`LENGTH` is not changed. -/
def spillIfNeeded (s : State) : Except Fault State :=
  if s.mustSpill then do
    let filled ← zeroFill 64 s
    let t ← filled.compressBuf
    return t.setCurlen 0
  else .ok s

/-- R78, step 5: the message bit count, big-endian, into `BUF[56..63]`. -/
def writeLengthField (s : State) : Except Fault State := do
  let m ← Memory.store 56 (store64be s.length) s.buf
  return { s with buf := m }

/-- R80, step 7: the five words of the running state, big-endian, in order. -/
def serializeDigest (h : RunningState) : List Byte :=
  store32be h.h0 ++ store32be h.h1 ++ store32be h.h2 ++ store32be h.h3 ++ store32be h.h4

/-- R77 to R79, steps 4 to 6: the final block is completed and compressed. -/
def finishBlock (s : State) : Except Fault State := do
  let filled ← zeroFill 56 s
  let block ← writeLengthField filled
  block.compressBuf

/-- R81, steps 1 to 6 and the lifecycle bit: the state `FINALIZE` leaves. -/
def finalizeState (s : State) : Except Fault State := do
  let terminated ← appendTerminator (countTail s)
  let spilled ← spillIfNeeded terminated
  let t ← finishBlock spilled
  return { t with phase := .done }

/-- R81: `FINALIZE` and then the emission, on `DOUT`, of the digest in the form `render` gives it. -/
def finalizeAndEmit (render : List Byte → List Byte) (s : State) : Except Fault State := do
  let t ← finalizeState s
  return t.emit (render (serializeDigest t.h))

/-- `DIGEST` (R82): the 20 raw digest bytes. -/
def execDigest (s : State) : Host.Outcome State Fault Refusal := admitted s (finalizeAndEmit (fun d => d) s)

end Sys2Proof.Machine
end

