-- ==== Sys2Proof/Machine/Hex.lean ====
section
/-! DEFINITION. Hex.lean: the Hex Formatter, commands `DIGEST_HEX` and `DIGEST_HEX_UC` (43_hex.md R86 to R91). -/

namespace Sys2Proof.Machine

/-- R86: the characters of the digit values 0 to 15 in the two cases. -/
def hexAlphabet (uppercase : Bool) : List Char :=
  ['0', '1', '2', '3', '4', '5', '6', '7', '8', '9'] ++
    (if uppercase then ['A', 'B', 'C', 'D', 'E', 'F'] else ['a', 'b', 'c', 'd', 'e', 'f'])

/-- R86: `hexdigit(v, uppercase)`. -/
def hexDigit (v : BitVec 4) (uppercase : Bool) : Char := (hexAlphabet uppercase).getD v.toNat '0'

/-- R87: the two characters of one byte, most significant nibble first. -/
def hexByte (uppercase : Bool) (b : Byte) : List Char :=
  [hexDigit (b.extractLsb' 4 4) uppercase, hexDigit (b.extractLsb' 0 4) uppercase]

/-- R87: `TO_HEX(digest, uppercase)`. -/
def toHex (digest : List Byte) (uppercase : Bool) : List Char := digest.flatMap (hexByte uppercase)

/-- R88: the byte code of a character on `DOUT`, its ASCII code. PRESUMED by the spec itself (93 G3; log 11). -/
def asciiCode (c : Char) : Byte := BitVec.ofNat 8 c.toNat

/-- The bytes of `TO_HEX` on `DOUT` (R87, R88). -/
def hexBytes (uppercase : Bool) (digest : List Byte) : List Byte := (toHex digest uppercase).map asciiCode

/-- `DIGEST_HEX` (R89): 40 bytes of lowercase text. -/
def execDigestHex (s : State) : Host.Outcome State Fault Refusal := admitted s (finalizeAndEmit (hexBytes false) s)

/-- `DIGEST_HEX_UC` (R90): 40 bytes of uppercase text. -/
def execDigestHexUc (s : State) : Host.Outcome State Fault Refusal := admitted s (finalizeAndEmit (hexBytes true) s)

end Sys2Proof.Machine
end

