-- ==== Sys2Proof/Machine/Dispatch.lean ====
section
/-! DEFINITION. Dispatch.lean: one arm per command (30_encoding.md R47). -/

namespace Sys2Proof.Machine

def exec (i : Instr) (s : State) : Host.Outcome State Fault Refusal :=
  match i with
  | .init => Sys2Proof.Machine.execInit s
  | .ingest len => Sys2Proof.Machine.execIngest len s
  | .digest => Sys2Proof.Machine.execDigest s
  | .digestHex => Sys2Proof.Machine.execDigestHex s
  | .digestHexUc => Sys2Proof.Machine.execDigestHexUc s

end Sys2Proof.Machine
end

