-- ==== Sys2Proof/Machine/Port.lean ====
section
/-! DEFINITION. Port.lean: the engine's input ports: a word on `CMD` taken and run, the acts of the host
(20_memory.md R31, 60_exceptions.md R101 to R107, 70_reset_and_hazards.md R112). -/

namespace Sys2Proof.Machine

/-- The word on `CMD` is taken and the host's `CP` advances, whether the command executes, faults or is refused
(R22, R103; log 9). -/
def State.takeCommand (s : State) : State := { s with cmd := none, cp := s.cp + 1 }

/-- `step(w)` of R104 for the word `w` taken from `CMD`: a faulted engine refuses every word, legal or not (R103); an
illegal word raises `IllegalCommand` (R101); the checks of a legal command are its own meaning's. -/
def runCommand (w : Word) (s : State) : Host.Outcome State Fault Refusal :=
  unlessFaulted s.takeCommand
    (match decode w with
     | .error _ => .next (s.takeCommand.raise .illegalCommand)
     | .ok i => exec i s.takeCommand)

/-- The host's next act, when the engine has no command it can run: either none is on `CMD`, or an `INGEST` waits there
for its payload. With nothing more to come the engine stays as it is (log 3) or is stuck for good (R107; log 2). -/
def hostStep (s : State) : Host.Outcome State Fault Refusal :=
  match s.host with
  | [] => if s.cmd.isNone then .next s else .fault .stuckPayloadShort
  | .supply bytes :: rest => .next { s with din := s.din ++ bytes, host := rest }
  | .reset :: rest => .next { s.resetEngine with host := rest }
  | .issue w :: rest => if s.cmd.isNone then .next { s with cmd := some w, host := rest } else .refused .overlappingCommand

/-- A command that has no step waits on `CMD` while the host acts (R107); any other outcome stands. -/
def hostStepIfStuck (s : State) : Host.Outcome State Fault Refusal → Host.Outcome State Fault Refusal
  | .next t => .next t
  | .fault .stuckPayloadShort => hostStep s
  | .fault .bufIndex => .fault .bufIndex
  | .fault .bufUnwritten => .fault .bufUnwritten
  | .refused r => .refused r

/-- One transition of engine and host: the word on `CMD` if it can run, else the host's next act. -/
def portStep (s : State) : Host.Outcome State Fault Refusal :=
  match s.cmd with
  | some w => hostStepIfStuck s (runCommand w s)
  | none => hostStep s

/-- The payload bytes that go with a command word: `LEN` of them for an `INGEST`, none for any other word (R49). -/
def payloadLength (w : Word) : Nat :=
  match decode w with
  | .ok (.ingest len) => len
  | .ok .init => 0
  | .ok .digest => 0
  | .ok .digestHex => 0
  | .ok .digestHexUc => 0
  | .error _ => 0

/-- The word `w` put on `CMD` with a payload of zero bytes at the head of `DIN` (log 10). -/
def State.presentWord (w : Word) (s : State) : State :=
  { s with cmd := some w, din := List.replicate (payloadLength w) 0x00 ++ s.din }

end Sys2Proof.Machine
end

