-- ==== Sys2Proof/Machine/Step.lean ====
section
/-! DEFINITION. Step.lean: the machine's one step, and a command placed where the next step takes it. -/

namespace Sys2Proof.Machine

/-- One step: a command is one atomic transition, and so is an act of the host (R36, R39). -/
def step (s : State) : Host.Outcome State Fault Refusal := portStep s

/-- `s` with the command of an opcode-table word presented on `CMD`, its payload bytes (all zero) at the head of `DIN`,
so that the next step takes and runs exactly it (log 10). -/
def State.withFetchWord (s : State) (nbits w : Nat) : State := s.presentWord (tableWord nbits w)

end Sys2Proof.Machine
end

