-- ==== Sys2Proof/WellFormed.lean ====
section
/-! DEFINITION. WellFormed.lean: which terms of Instr are commands. -/

namespace Sys2Proof

/-- The only operand is `LEN`, an unsigned number 0 to 65535 (R48); a longer span is no `INGEST` command (R53, R97). -/
def Instr.wellFormed : Instr → Bool
  | .init => true
  | .ingest len => decide (len ≤ Config.maxLen)
  | .digest => true
  | .digestHex => true
  | .digestHexUc => true

end Sys2Proof
end

