-- ==== Sys2Proof/Machine/Assembler.lean ====
section
/-! DEFINITION. Assembler.lean: what a host sends for a program line: the operand forms and the emission of R53, the
pseudo-commands of R54 and 44_oneshot.md R92 to R97. Host side: the engine sees only the words and bytes. -/

namespace Sys2Proof.Machine

/-- The operand of `INGEST` in a program line (R53). -/
inductive SpanOperand where
  /-- `"text"`: each character its ASCII code, no terminator (R53, R96). -/
  | text (chars : List Char)
  /-- `hex:` with the first byte leftmost. -/
  | hex (bytes : List Byte)
  /-- `n * hex:bb`. -/
  | copies (n : Nat) (byte : Byte)
  /-- `x ++ y`. -/
  | join (x y : SpanOperand)
deriving DecidableEq, Repr

/-- The bytes of an operand; none for a character without an ASCII code, about which the spec says nothing (N6; log 17). -/
def SpanOperand.bytes : SpanOperand → Option (List Byte)
  | .text chars => if chars.all (fun c => decide (c.toNat < 128)) then some (chars.map asciiCode) else none
  | .hex bytes => some bytes
  | .copies n byte => some (List.replicate n byte)
  | .join x y =>
    match x.bytes, y.bytes with
    | some bx, some bv => some (bx ++ bv)
    | _, _ => none

/-- A command with the payload it needs: the bytes on `DIN`, the word on `CMD` (R49, R53). That the bytes are supplied before
the word is issued, and that a command without a payload is sent with an empty supply, is the model's choice: the rules fix
no order between the two ports (DESIGN CHOICE, log 22). -/
def sendCommand (payload : List Byte) (i : Instr) : List HostAction := [.supply payload, .issue (encode i)]

/-- One `INGEST` of the span `x` (R53). -/
def sendIngest (x : List Byte) : List HostAction := sendCommand x (.ingest x.length)

/-- R97: the canonical split of a span into pieces of at most 65535 bytes, at least one piece. The fuel bounds the
number of pieces after the first; `x.length` is enough. -/
def longPieces : Nat → List Byte → List (List Byte)
  | 0, x => [x]
  | fuel + 1, x =>
    if x.length ≤ Config.maxLen then [x] else x.take Config.maxLen :: longPieces fuel (x.drop Config.maxLen)

/-- `INGEST_LONG x` (R97). -/
def sendIngestLong (x : List Byte) : List HostAction := (longPieces x.length x).flatMap sendIngest

/-- A line of a program: the five commands and the six pseudo-commands (R53, R54). -/
inductive ProgramLine where
  | init
  | ingest (x : SpanOperand)
  | digest
  | digestHex
  | digestHexUc
  /-- `NEW` (R92). -/
  | new
  /-- `NEW_WITH x` (R92). -/
  | newWith (x : SpanOperand)
  /-- `INGEST_LONG x` (R97). -/
  | ingestLong (x : SpanOperand)
  /-- `SHA1_RAW x` (R93). -/
  | sha1Raw (x : SpanOperand)
  /-- `SHA1_HEX x` (R94). -/
  | sha1Hex (x : SpanOperand)
  /-- `SHA1_HEX_UC x` (R95). -/
  | sha1HexUc (x : SpanOperand)
deriving DecidableEq, Repr

/-- `INIT ; INGEST_LONG x ; <finalizing command>` (R93 to R95). -/
def sendOneShot (final : Instr) (x : List Byte) : List HostAction :=
  sendCommand [] .init ++ sendIngestLong x ++ sendCommand [] final

/-- What the host sends for a line; none where the assembler refuses it: an `INGEST` operand longer than 65535 bytes
(R53), or a text without ASCII codes. -/
def assembleLine : ProgramLine → Option (List HostAction)
  | .init => some (sendCommand [] .init)
  | .ingest x =>
    match x.bytes with
    | some bytes => if (Instr.ingest bytes.length).wellFormed then some (sendIngest bytes) else none
    | none => none
  | .digest => some (sendCommand [] .digest)
  | .digestHex => some (sendCommand [] .digestHex)
  | .digestHexUc => some (sendCommand [] .digestHexUc)
  | .new => some (sendCommand [] .init)
  | .newWith x => x.bytes.map (fun bytes => sendCommand [] .init ++ sendIngestLong bytes)
  | .ingestLong x => x.bytes.map sendIngestLong
  | .sha1Raw x => x.bytes.map (sendOneShot .digest)
  | .sha1Hex x => x.bytes.map (sendOneShot .digestHex)
  | .sha1HexUc x => x.bytes.map (sendOneShot .digestHexUc)

end Sys2Proof.Machine
end

