-- ==== Sys2Proof/Machine/Blocks.lean ====
section
/-! DEFINITION. Blocks.lean: several SHA1-CORE blocks (60_exceptions.md R110, 10_state.md R29): the product of as many
copies of this machine, with no shared state. -/

namespace Sys2Proof.Machine

/-- One step of block `k` of a system of blocks: only that block's state can change (R110). -/
def stepBlock (k : Nat) (blocks : List State) : Host.Outcome (List State) Fault Refusal :=
  match blocks[k]? with
  | none => .next blocks
  | some s =>
    match step s with
    | .next t => .next (blocks.set k t)
    | .fault f => .fault f
    | .refused r => .refused r

end Sys2Proof.Machine
end

