-- ==== Sys2Proof/Safety.lean ====
section
/-! DEFINITION. Safety.lean: the terms claims use: the invariant of R24, the closed forms of R72 and R83, final and waiting states, sequences of commands,
and states that differ only where nothing can observe it (R25). -/

namespace Sys2Proof.Machine

/-! ### The invariant -/

/-- R24 items 1, 3 and 4 as far as one state can say them, with the canonical form of `BUF`, the tie of `FAULT` to
`FCODE` (R20) and the phase in which a `UsageViolation` can have been raised (R102). It holds of a faulted engine too,
since fault entry changes nothing else (R105). -/
structure Inv (s : State) : Prop where
  /-- `BUF` is in its canonical form. -/
  buf_wf : Memory.wf s.buf = true
  /-- `FAULT = 0` exactly when `FCODE = 0` (R20). -/
  fault_fcode : s.fault = false ↔ s.fcode = .none
  /-- `UsageViolation` is raised only in phase `DONE` (R102). -/
  usage_done : s.fcode = .usageViolation → s.phase = .done
  /-- `LENGTH` is a multiple of 512 while absorbing (R24 item 1) and counts whole bytes always (R74). -/
  length_bytes : s.length.toNat % 8 = 0
  length_blocks : s.phase = .absorb → s.length.toNat % 512 = 0
  /-- `0 <= CURLEN <= 63` while absorbing (R24 item 1). -/
  curlen_absorb : s.phase = .absorb → s.curlen.toNat ≤ 63
  /-- The live bytes hold values (R24 items 1 and 4). -/
  live_written : s.phase = .absorb → (Memory.readList s.curlen.toNat 0 s.buf).isSome = true
  /-- After finalization `CURLEN = 56` and `BUF` is written whole (R24 item 3, R85). -/
  curlen_done : s.phase = .done → s.curlen = 56
  block_written : s.phase = .done → (Memory.readList 64 0 s.buf).isSome = true

/-- A state that can be the end of a run: no fault (R103). -/
def State.isFinal (s : State) : Prop := s.fault = false ∧ s.cmd = none

/-- No command can run: nothing stands on `CMD`, or the word there is an `INGEST` that waits for its payload (R107). In
such a state the host acts next (logs 1 and 2). -/
def State.AwaitsHost (s : State) : Prop :=
  s.cmd = none ∨
    (s.fault = false ∧ s.phase = .absorb ∧
      ∃ w len, s.cmd = some w ∧ decode w = .ok (.ingest len) ∧ s.din.length < len)

/-- Commands executed one after another, as far as each has a next state (R39). -/
def execAll : List Instr → State → Host.Outcome State Fault Refusal
  | [], s => .next s
  | i :: rest, s =>
    match exec i s with
    | .next t => execAll rest t
    | .fault f => .fault f
    | .refused r => .refused r

/-! ### The closed forms of R72 and R83 -/

/-- `compress` applied to the first `q` blocks of `m`, in order (R72). -/
def compressBlocks : Nat → RunningState → List Byte → RunningState
  | 0, h, _ => h
  | q + 1, h, m => compressBlocks q (compress h (m.take 64)) (m.drop 64)

/-- R72: the state an instance is in after ingesting the message `m`, whatever the chunking. -/
structure Absorbed (m : List Byte) (s : State) : Prop where
  absorbing : s.phase = .absorb
  h_eq : s.h = compressBlocks (m.length / 64) RunningState.initial m
  curlen_eq : s.curlen.toNat = m.length % 64
  length_eq : s.length = BitVec.ofNat 64 (512 * (m.length / 64))
  live_eq : Memory.readList (m.length % 64) 0 s.buf = some (m.drop (64 * (m.length / 64)))

/-- R83: the zero bytes of the padding, 55 - r of them for a tail of r <= 55 bytes, 119 - r for a longer tail. -/
def padZeros (n : Nat) : Nat := if n % 64 ≤ 55 then 55 - n % 64 else 119 - n % 64

/-- R83: the padded message, the terminator, the zeros and the 64-bit count of message bits. -/
def padMessage (m : List Byte) : List Byte :=
  m ++ [0x80] ++ List.replicate (padZeros m.length) 0x00 ++ store64be (BitVec.ofNat 64 (8 * m.length))

/-- The five words of the digest of `m`: every block of the padded message compressed in order (R72, R83). -/
def sha1Words (m : List Byte) : RunningState :=
  compressBlocks ((padMessage m).length / 64) RunningState.initial (padMessage m)

/-- The 20 digest bytes of `m` (R80, R83). -/
def sha1 (m : List Byte) : List Byte := serializeDigest (sha1Words m)

/-! ### What a command emits and takes -/

/-- How many bytes a command that executes appends to `DOUT` (R32). -/
def emittedCount : Instr → Nat
  | .init => 0
  | .ingest _ => 0
  | .digest => 20
  | .digestHex => 40
  | .digestHexUc => 40

/-- How many bytes a command that executes takes from `DIN` (R31). -/
def takenCount : Instr → Nat
  | .init => 0
  | .ingest len => len
  | .digest => 0
  | .digestHex => 0
  | .digestHexUc => 0

/-- The indices of `BUF` an `INGEST` of `len` bytes writes, starting with `c` bytes buffered (R67 to R69): the buffered
path from `c` up, unless the direct path takes everything up to the tail, and the tail from 0 up. -/
def ingestWrites (c len i : Nat) : Prop :=
  ((0 < c ∨ len < 64) ∧ c ≤ i ∧ i < min (c + len) 64) ∨ (64 ≤ c + len ∧ i < (c + len) % 64)

/-! ### Stale bytes -/

/-- Two states equal but for the bytes of `BUF` nothing can observe: the stale ones (R25), and every byte of `BUF` once
the instance is finalized (R85: no command reads it again before `INIT`). -/
structure SameButStale (s t : State) : Prop where
  rest_eq : { s with buf := t.buf } = t
  live_eq : s.phase = .absorb → Memory.readList s.curlen.toNat 0 s.buf = Memory.readList s.curlen.toNat 0 t.buf

/-- Two outcomes alike: next states that differ in stale bytes only, or the same stop. -/
def OutcomeSameButStale : Host.Outcome State Fault Refusal → Host.Outcome State Fault Refusal → Prop
  | .next s, .next t => SameButStale s t
  | .fault f, .fault g => f = g
  | .refused r, .refused q => r = q
  | _, _ => False

/-- Reading hexadecimal text of either case back (R91): the value of a digit's byte code. -/
def hexValue (b : Byte) : BitVec 4 :=
  if b.toNat < 0x40 then BitVec.ofNat 4 (b.toNat - 0x30)
  else if b.toNat < 0x60 then BitVec.ofNat 4 (b.toNat - 0x41 + 10)
  else BitVec.ofNat 4 (b.toNat - 0x61 + 10)

/-- Reading hexadecimal text back, two characters a byte (R91). -/
def parseHex : List Byte → List Byte
  | hi :: lo :: rest => (hexValue hi ++ hexValue lo) :: parseHex rest
  | _ => []

end Sys2Proof.Machine
end

