-- ==== Sys2Proof/Certificates/Slice0/Obligations.lean ====
section
/-! DEFINITION. Obligations.lean: the statements for the provers, from the numbered rules of spec/. "Log <n>" is
notes/assumptions/<n>.md. -/

open Sys2Proof Sys2Proof.Machine

/-! ### Primitives (00_scope.md section 6) -/

/-- R5: `add32` is addition modulo 2^32, and the terms of a sum may be folded in any order. -/
def Obligations.Add32WrapsModuloTwoToThe32 : Prop :=
  ∀ x y z : Word,
    (add32 x y).toNat = (x.toNat + y.toNat) % 2 ^ 32 ∧ add32 x y = add32 y x ∧
      add32 (add32 x y) z = add32 x (add32 y z)

/-- The reading of `rotl32` that R6 takes from general knowledge (log 11), for the three amounts the engine uses: as a
number, and bit by bit (bit `i` moves to bit `(i + n) mod 32`). -/
def Obligations.Rotl32MovesEveryBit : Prop :=
  ∀ (x : Word) (n : Nat), n = 1 ∨ n = 5 ∨ n = 30 →
    (rotl32 x n).toNat = x.toNat * 2 ^ n % 2 ^ 32 + x.toNat / 2 ^ (32 - n) ∧
      ∀ i, i < 32 → (rotl32 x n).getLsbD ((i + n) % 32) = x.getLsbD i

/-- R8: four bytes assembled most significant first. -/
def Obligations.Load32BigEndian : Prop :=
  ∀ b0 b1 b2 b3 : Byte,
    (load32be b0 b1 b2 b3).toNat = b0.toNat * 2 ^ 24 + b1.toNat * 2 ^ 16 + b2.toNat * 2 ^ 8 + b3.toNat

/-- A word as four bytes, most significant first (00_scope.md section 6, R9), and the inverse of `load32be`, both ways.
That it is the inverse is the spec's own inference, which R9 marks as derived from R8 and R9. -/
def Obligations.Store32BigEndian : Prop :=
  (∀ w : Word, (store32be w).length = 4 ∧
    (∀ j, j < 4 → ((store32be w).getD j 0).toNat = w.toNat / 2 ^ (8 * (3 - j)) % 2 ^ 8) ∧
    load32be ((store32be w).getD 0 0) ((store32be w).getD 1 0) ((store32be w).getD 2 0) ((store32be w).getD 3 0) = w) ∧
  ∀ b0 b1 b2 b3 : Byte, store32be (load32be b0 b1 b2 b3) = [b0, b1, b2, b3]

/-- R10: a 64-bit value as eight bytes, most significant first. -/
def Obligations.Store64BigEndian : Prop :=
  ∀ v : DWord, (store64be v).length = 8 ∧
    ∀ j, j < 8 → ((store64be v).getD j 0).toNat = v.toNat / 2 ^ (8 * (7 - j)) % 2 ^ 8

/-- `add64` is addition modulo 2^64, the wrap silent (00_scope.md section 6, R11), and what an `INGEST` of one block straight
from the input does to `LENGTH`, whatever `LENGTH` was (`LEN` = 64 with `CURLEN` = 0; every other `INGEST` is
`IngestCompletesWithItsFrame`'s). "That an 'unsigned 64-bit integer' that 'can wrap' wraps modulo 2^64 is the spec's
reading" (R11, 92_eei_decisions.md D27). -/
def Obligations.Add64WrapsModuloTwoToThe64 : Prop :=
  (∀ x y : DWord, (add64 x y).toNat = (x.toNat + y.toNat) % 2 ^ 64) ∧
  ∀ s : State, s.fault = false → s.phase = .absorb → s.curlen = 0 → 64 ≤ s.din.length →
    ∃ t, exec (.ingest 64) s = .next t ∧ t.length.toNat = (s.length.toNat + 512) % 2 ^ 64 ∧ t.fault = false ∧
      t.fcode = s.fcode ∧ t.curlen = 0

/-! ### The Compression Core (40_compress.md) -/

/-- R56: `W[0..15]` are the block's words, each from four consecutive bytes, most significant first. -/
def Obligations.ScheduleLoadsBlockWords : Prop :=
  ∀ block : List Byte, block.length = 64 → ∀ t, t < 16 →
    (schedule block).getD t 0 =
      load32be (block.getD (4 * t) 0) (block.getD (4 * t + 1) 0) (block.getD (4 * t + 2) 0) (block.getD (4 * t + 3) 0)

/-- R57: the schedule has 80 words, and `W[i]` for 16 <= i <= 79 comes from `W[i-3]`, `W[i-8]`, `W[i-14]`, `W[i-16]`. -/
def Obligations.ScheduleExpansionRecurrence : Prop :=
  ∀ block : List Byte, block.length = 64 →
    (schedule block).length = 80 ∧
      ∀ i, 16 ≤ i → i < 80 →
        (schedule block).getD i 0 =
          rotl32 ((schedule block).getD (i - 3) 0 ^^^ (schedule block).getD (i - 8) 0 ^^^
            (schedule block).getD (i - 14) 0 ^^^ (schedule block).getD (i - 16) 0) 1

/-- R59's truth table, bit by bit: the choice of `c` or `d` by `b`, the parity, the majority. -/
def Obligations.MixFunctionTruthTable : Prop :=
  ∀ (i : Nat) (b c d : Word) (j : Nat), j < 32 →
    (i < 20 → (mix i b c d).getLsbD j = if b.getLsbD j then c.getLsbD j else d.getLsbD j) ∧
    (20 ≤ i ∧ i < 40 ∨ 60 ≤ i ∧ i < 80 →
      (mix i b c d).getLsbD j = ((b.getLsbD j != c.getLsbD j) != d.getLsbD j)) ∧
    (40 ≤ i ∧ i < 60 →
      (mix i b c d).getLsbD j = decide (2 ≤ (b.getLsbD j).toNat + (c.getLsbD j).toNat + (d.getLsbD j).toNat))

/-- R60: the additive constants of the four groups of rounds. -/
def Obligations.RoundConstantsOfTheFourGroups : Prop :=
  ∀ i : Nat,
    (i < 20 → roundConstant i = 0x5A827999) ∧ (20 ≤ i ∧ i < 40 → roundConstant i = 0x6ED9EBA1) ∧
      (40 ≤ i ∧ i < 60 → roundConstant i = 0x8F1BBCDC) ∧ (60 ≤ i ∧ i < 80 → roundConstant i = 0xCA62C1D6)

/-- R58 and R61: the working variables start as the running state, and round `i` updates them simultaneously with
`W[i]`. -/
def Obligations.RoundsUpdateWorkingVariables : Prop :=
  ∀ (h : RunningState) (block : List Byte), block.length = 64 →
    compressRounds 0 ((schedule block).take 0) (startWorking h) = ⟨h.h0, h.h1, h.h2, h.h3, h.h4⟩ ∧
      ∀ i, i < 80 → ∀ v : Working, v = compressRounds 0 ((schedule block).take i) (startWorking h) →
        compressRounds 0 ((schedule block).take (i + 1)) (startWorking h) =
          { a := add32 (add32 (add32 (add32 (rotl32 v.a 5) (mix i v.b v.c v.d)) v.e) ((schedule block).getD i 0))
              (roundConstant i)
            b := v.a
            c := rotl32 v.b 30
            d := v.c
            e := v.d }

/-- R62: after the 80 rounds the working variables are added back into the running state, element by element. -/
def Obligations.FeedForwardAddsWorkingVariables : Prop :=
  ∀ (h : RunningState) (block : List Byte), block.length = 64 →
    ∀ v : Working, v = compressRounds 0 ((schedule block).take 80) (startWorking h) →
      compress h block = ⟨add32 h.h0 v.a, add32 h.h1 v.b, add32 h.h2 v.c, add32 h.h3 v.d, add32 h.h4 v.e⟩

/-! ### Encoding (30_encoding.md) -/

/-- Decoding an encoded command gives it back, for every command and every value of `LEN`. -/
def Obligations.DecodeOfEncodeIsTheCommand : Prop :=
  ∀ i : Instr, i.wellFormed = true → decode (encode i) = .ok i

/-- A word that decodes is the encoding of the command it decodes to, which is well formed. -/
def Obligations.EncodeOfDecodeIsTheWord : Prop :=
  ∀ (w : Word) (i : Instr), decode w = .ok i → i.wellFormed = true ∧ encode i = w

/-- R47: a word selects a row when `(w & mask) = match`; the hex opcodes differ in bit 24, the `uppercase` operand. -/
def Obligations.WordsSelectRowsByMaskAndMatch : Prop :=
  (∀ w : Word,
    (decode w = .ok .init ↔ w &&& 0xFFFFFFFF = 0x01000000) ∧
    ((∃ len, decode w = .ok (.ingest len)) ↔ w &&& 0xFFFF0000 = 0x02000000) ∧
    (∀ len, decode w = .ok (.ingest len) → len = w.toNat % 65536) ∧
    (decode w = .ok .digest ↔ w &&& 0xFFFFFFFF = 0x03000000) ∧
    (decode w = .ok .digestHex ↔ w &&& 0xFFFFFFFF = 0x04000000) ∧
    (decode w = .ok .digestHexUc ↔ w &&& 0xFFFFFFFF = 0x05000000)) ∧
  (encode .digestHex).getLsbD 24 = false ∧ (encode .digestHexUc).getLsbD 24 = true

/-- R50: which words are illegal, by the three fields as numbers; the all-zero and the all-ones word are; exactly 65540
words are legal; an illegal word raises `IllegalCommand`. -/
def Obligations.IllegalWordsExactly : Prop :=
  (∀ w : Word, (∃ e, decode w = .error e) ↔
    (w.toNat / 2 ^ 24 = 0 ∨ 6 ≤ w.toNat / 2 ^ 24) ∨ w.toNat / 2 ^ 16 % 2 ^ 8 ≠ 0 ∨
      (w.toNat / 2 ^ 24 ∈ [1, 3, 4, 5] ∧ w.toNat % 2 ^ 16 ≠ 0)) ∧
  (∃ e, decode 0x00000000 = .error e) ∧ (∃ e, decode 0xFFFFFFFF = .error e) ∧
  (∃ legal : List Word, legal.Nodup ∧ legal.length = 65536 + 4 ∧ ∀ w, w ∈ legal ↔ ∃ i, decode w = .ok i) ∧
  (∀ (s : State) (w : Word) (e : IllegalWord), s.fault = false → s.cmd = some w → decode w = .error e →
    ∃ t, step s = .next t ∧ t.fault = true ∧ t.fcode = .illegalCommand)

/-- Words written out from the encoding of 30_encoding.md R46 and R47: opcode byte, zero byte, length. -/
def Obligations.SampleWordsDecode : Prop :=
  decode 0b00000001000000000000000000000000 = .ok .init ∧
  decode 0b00000010000000000000000000000011 = .ok (.ingest 3) ∧
  decode 0b00000010000000001111111111111111 = .ok (.ingest 65535) ∧
  decode 0b00000011000000000000000000000000 = .ok .digest ∧
  decode 0b00000100000000000000000000000000 = .ok .digestHex ∧
  decode 0b00000101000000000000000000000000 = .ok .digestHexUc ∧
  decode 0b00000110000000000000000000000000 = .error .opcode ∧
  decode 0b00000010000000010000000000000011 = .error .zeroField ∧
  decode 0b00000011000000000000000000010100 = .error .lenField

/-! ### Reset and status -/

/-- R112: the RESET event at any time between commands, faulted or not, also while an `INGEST` waits on `CMD` for its
payload: every register at its reset value, both streams empty, `CP` back to 0. -/
def Obligations.ResetEventCreatesFreshInstance : Prop :=
  ∀ (s : State) (rest : List HostAction), s.AwaitsHost → s.host = .reset :: rest →
    ∃ t, step s = .next t ∧
      t.h = ⟨0x67452301, 0xEFCDAB89, 0x98BADCFE, 0x10325476, 0xC3D2E1F0⟩ ∧ t.curlen = 0 ∧ t.length = 0 ∧
      t.phase = .absorb ∧ t.fault = false ∧ t.fcode = .none ∧ (∀ i, Memory.read i t.buf = none) ∧ t.din = [] ∧
      t.dout = [] ∧ t.cp = 0

/-- `State.reset` is the state of 10_state.md section 8 (R27, and R112 for `CP`), with, as the model's own choice (log 1), no
word on `CMD` and nothing for the host to do; a RESET at any time between commands leaves it but for what the host does
later. That a RESET withdraws the word of an `INGEST` that waits on `CMD` is the model's reading (DEDUCED, log 7). -/
def Obligations.ResetStateIsTheCreatedInstance : Prop :=
  (State.reset.h = ⟨0x67452301, 0xEFCDAB89, 0x98BADCFE, 0x10325476, 0xC3D2E1F0⟩ ∧ State.reset.curlen = 0 ∧
    State.reset.length = 0 ∧ State.reset.phase = .absorb ∧ State.reset.fault = false ∧ State.reset.fcode = .none ∧
    State.reset.status = 0x00 ∧ (∀ i, Memory.read i State.reset.buf = none) ∧ State.reset.din = [] ∧
    State.reset.dout = [] ∧ State.reset.cp = 0 ∧ State.reset.cmd = none ∧ State.reset.host = []) ∧
  ∀ (s : State) (rest : List HostAction), s.AwaitsHost → s.host = .reset :: rest →
    step s = .next { State.reset with host := rest }

/-- The `STATUS` register of 10_state.md section 4 as a number: PHASE in bit 0, FAULT in bit 1, FCODE in bits 3:2, bits
7:4 zero. -/
def Obligations.StatusRegisterLayout : Prop :=
  ∀ s : State, s.status.toNat =
    (if s.phase = .done then 1 else 0) + (if s.fault then 2 else 0) +
      4 * (match s.fcode with | .none => 0 | .illegalCommand => 1 | .usageViolation => 2)

/-- The values `STATUS` can take in a state that meets the invariant: 0x00, 0x01, 0x06, 0x07 and 0x0B; 0x0A is
unreachable (95_test_vectors.md section 9). -/
def Obligations.StatusTakesFiveValues : Prop :=
  ∀ s : State, Inv s → s.status.toNat ∈ [0x00, 0x01, 0x06, 0x07, 0x0B]

/-! ### INIT and INGEST (41_accumulator.md) -/

/-- R65: `INIT` on a non-faulted engine, in either phase, with everything it does not touch; a faulted engine refuses it;
its word. -/
def Obligations.InitCreatesFreshInstance : Prop :=
  (∀ s : State, s.fault = false →
    exec .init s = .next { s with
      h := ⟨0x67452301, 0xEFCDAB89, 0x98BADCFE, 0x10325476, 0xC3D2E1F0⟩
      curlen := 0
      length := 0
      phase := .absorb
      buf := [] }) ∧
  (∀ s : State, s.fault = true → exec .init s = .next s) ∧ (∀ i, Memory.read i [] = none) ∧ encode .init = 0x01000000

/-- An `INGEST` of no bytes changes no state at all (41_accumulator.md section 2, corner case 1). -/
def Obligations.IngestOfNothingChangesNothing : Prop :=
  ∀ s : State, s.fault = false → s.phase = .absorb → exec (.ingest 0) s = .next s

/-- R68, one iteration: with an empty buffer and at least 64 bytes to go, `INGEST` compresses the next 64 payload bytes
straight from the input, adds 512 to `LENGTH`, leaves `BUF` and `CURLEN` alone, and goes on with the rest. -/
def Obligations.IngestDirectPath : Prop :=
  ∀ (s : State) (len : Nat), s.fault = false → s.phase = .absorb → s.curlen = 0 → 64 ≤ len → len ≤ s.din.length →
    exec (.ingest len) s =
      exec (.ingest (len - 64)) { s with
        h := compress s.h (s.din.take 64)
        length := add64 s.length 512
        din := s.din.drop 64 }

/-- R69, one iteration: otherwise `INGEST` copies the `k` bytes that fit into `BUF` from index `CURLEN` up; a buffer that
does not fill keeps them, and all the input is consumed; a full buffer is compressed, `LENGTH` grows by 512, `CURLEN`
returns to 0, and `INGEST` goes on with the rest. -/
def Obligations.IngestBufferedPath : Prop :=
  ∀ (s : State) (len k : Nat) (live : List Byte), s.fault = false → s.phase = .absorb → s.curlen.toNat ≤ 63 →
    Memory.readList s.curlen.toNat 0 s.buf = some live → 1 ≤ len → len ≤ s.din.length → (s.curlen ≠ 0 ∨ len < 64) →
    k = min len (64 - s.curlen.toNat) →
    ∃ b : Memory,
      (∀ j, j < k → Memory.read (s.curlen.toNat + j) b = s.din[j]?) ∧
      (∀ i, (i < s.curlen.toNat ∨ s.curlen.toNat + k ≤ i) → Memory.read i b = Memory.read i s.buf) ∧
      (s.curlen.toNat + k < 64 →
        k = len ∧
        exec (.ingest len) s =
          .next { s with buf := b, curlen := BitVec.ofNat 7 (s.curlen.toNat + k), din := s.din.drop len }) ∧
      (s.curlen.toNat + k = 64 →
        exec (.ingest len) s =
          exec (.ingest (len - k)) { s with
            h := compress s.h (live ++ s.din.take k)
            buf := b
            length := add64 s.length 512
            curlen := 0
            din := s.din.drop k })

/-- What an `INGEST` that runs does and what it leaves alone, from any state that meets the invariant: it completes;
`CURLEN` and `LENGTH` count what it took; the bytes of `BUF` its two paths do not write read as before, where
`ingestWrites` computes the written indices; every field but `H`, `BUF`, `CURLEN`, `LENGTH` and `DIN` is unchanged. -/
def Obligations.IngestCompletesWithItsFrame : Prop :=
  ∀ (s : State) (len : Nat), Inv s → s.fault = false → s.phase = .absorb → len ≤ s.din.length →
    ∃ t, exec (.ingest len) s = .next t ∧
      t.curlen.toNat = (s.curlen.toNat + len) % 64 ∧
      t.length = add64 s.length (BitVec.ofNat 64 (512 * ((s.curlen.toNat + len) / 64))) ∧
      t.din = s.din.drop len ∧
      (∀ i, ¬ ingestWrites s.curlen.toNat len i → Memory.read i t.buf = Memory.read i s.buf) ∧
      (s.curlen.toNat + len < 64 → t.h = s.h) ∧
      { t with h := s.h, buf := s.buf, curlen := s.curlen, length := s.length, din := s.din } = s

/-- The closed form of 41_accumulator.md section 3 (R72): an instance that has absorbed `m` and ingests the next `len`
bytes of `DIN` has then absorbed `m` followed by them, whatever the chunking. -/
def Obligations.IngestExtendsTheAbsorbedMessage : Prop :=
  ∀ (s : State) (m : List Byte) (len : Nat), Absorbed m s → s.fault = false → len ≤ s.din.length →
    ∃ t, exec (.ingest len) s = .next t ∧ Absorbed (m ++ s.din.take len) t ∧ t.din = s.din.drop len ∧
      { t with h := s.h, buf := s.buf, curlen := s.curlen, length := s.length, din := s.din } = s

/-- Chunking invariance (41_accumulator.md section 3, R71), from any state that meets the invariant: two ingests of
adjacent spans and one ingest of both leave states that differ in stale bytes of `BUF` only. R71 says it of spans of at
most 65535 bytes together; for longer ones the statement rests on the meaning log 19 gives an `INGEST` no word encodes. -/
def Obligations.ChunkingInvariance : Prop :=
  ∀ (s : State) (m n : Nat), Inv s → s.fault = false → s.phase = .absorb → m + n ≤ s.din.length →
    ∃ t u v, exec (.ingest m) s = .next t ∧ exec (.ingest n) t = .next u ∧ exec (.ingest (m + n)) s = .next v ∧
      SameButStale u v

/-- An `INGEST` with too few bytes on `DIN` has no step of its own (60_exceptions.md section 3, R107): the machine stops
by name when the host does nothing more (the model's reading of "stuck", log 2), and otherwise the word waits on `CMD`,
nothing else changed, while the host acts and appends bytes (log 1). That the word leaves `CMD` and `CP` advances when it is
taken is the model's choice (log 9). A RESET meanwhile is `ResetEventCreatesFreshInstance`'s, a second word
`OverlappingWordIsRefused`'s. -/
def Obligations.ShortPayloadLeavesIngestWaiting : Prop :=
  ∀ (s : State) (w : Word) (len : Nat), s.fault = false → s.phase = .absorb → s.cmd = some w →
    decode w = .ok (.ingest len) → s.din.length < len →
    exec (.ingest len) s = .fault .stuckPayloadShort ∧
    (s.host = [] → step s = .fault .stuckPayloadShort) ∧
    (∀ bytes rest, s.host = .supply bytes :: rest →
      step s = .next { s with din := s.din ++ bytes, host := rest } ∧
      (len ≤ s.din.length + bytes.length →
        step { s with din := s.din ++ bytes, host := rest } =
          exec (.ingest len) { s with din := s.din ++ bytes, host := rest, cmd := none, cp := s.cp + 1 }))

/-! ### FINALIZE and DIGEST (42_finalizer.md) -/

/-- R80: the digest bytes of the five words, `digest[4j + k]` the byte of `H[j]` from bit `31 - 8k` down. -/
def Obligations.DigestSerializesWordsBigEndian : Prop :=
  ∀ h : RunningState, (serializeDigest h).length = 20 ∧
    ∀ j k, j < 5 → k < 4 →
      ((serializeDigest h).getD (4 * j + k) 0).toNat =
        ([h.h0, h.h1, h.h2, h.h3, h.h4].getD j 0).toNat / 2 ^ (8 * (3 - k)) % 2 ^ 8

/-- The padding, the serialisation and the lifecycle bit (42_finalizer.md section 1, R74 to R81), through the three commands
that run FINALIZE and emit the digest (R82, R89, R90): with the live bytes written and at most 55 of them, one block is compressed, and `BUF` below `CURLEN` keeps its bytes; with 56 to 63 of
them the block spills and two are. `CURLEN` ends at 56 (that the zero fills
advance it is "this spec's reading", R76, 92_eei_decisions.md D28), `BUF` holds the last block, the digest of the new `H`
is emitted in the command's form (its characters are log 11's), everything else is as before. -/
def Obligations.FinalizePadsAndCompresses : Prop :=
  ∀ (s : State) (live : List Byte) (len : DWord), s.fault = false → s.phase = .absorb →
    Memory.readList s.curlen.toNat 0 s.buf = some live → len = add64 s.length (BitVec.ofNat 64 (s.curlen.toNat * 8)) →
    ∀ (i : Instr) (render : List Byte → List Byte),
      (i = .digest ∧ render = (fun d => d)) ∨ (i = .digestHex ∧ render = hexBytes false) ∨
        (i = .digestHexUc ∧ render = hexBytes true) →
      (s.curlen.toNat ≤ 55 →
        ∀ block h, block = live ++ [0x80] ++ List.replicate (55 - s.curlen.toNat) 0x00 ++ store64be len →
          h = compress s.h block →
          ∃ b, Memory.readList 64 0 b = some block ∧
            (∀ k, k < s.curlen.toNat → Memory.read k b = Memory.read k s.buf) ∧
            exec i s = .next { s with
              h := h, buf := b, curlen := 56, length := len, phase := .done
              dout := s.dout ++ render (serializeDigest h) }) ∧
      (56 ≤ s.curlen.toNat ∧ s.curlen.toNat ≤ 63 →
        ∀ first last h, first = live ++ [0x80] ++ List.replicate (63 - s.curlen.toNat) 0x00 →
          last = List.replicate 56 0x00 ++ store64be len → h = compress (compress s.h first) last →
          ∃ b, Memory.readList 64 0 b = some last ∧
            exec i s = .next { s with
              h := h, buf := b, curlen := 56, length := len, phase := .done
              dout := s.dout ++ render (serializeDigest h) })

/-- The digest of the whole message (42_finalizer.md section 3, R83 and R85): on an instance that has absorbed `m`, each
finalizing command completes, emits the digest the rules give `m` in its form (the bit count modulo 2^64; by R118 and D27 it
is the SHA-1 digest of `m` where `m` is shorter than 2^61 bytes), and leaves the digest words in `H`, `CURLEN` = 56, the
message bit count in `LENGTH`, `BUF` written whole, and everything else as before. The emission on `DOUT` is that of
42_finalizer.md section 2 (R82) and 43_hex.md section 2 (R89, R90), its hexadecimal byte codes are log 11's, and
`CURLEN` = 56 is D28's reading. -/
def Obligations.FinalizingCommandsEmitTheDigest : Prop :=
  ∀ (s : State) (m : List Byte), Absorbed m s → s.fault = false →
    ∃ b, (Memory.readList 64 0 b).isSome = true ∧
      ∀ (i : Instr) (text : List Byte),
        (i = .digest ∧ text = sha1 m) ∨ (i = .digestHex ∧ text = hexBytes false (sha1 m)) ∨
          (i = .digestHexUc ∧ text = hexBytes true (sha1 m)) →
        exec i s = .next { s with
          h := sha1Words m, buf := b, curlen := 56, length := BitVec.ofNat 64 (8 * m.length), phase := .done
          dout := s.dout ++ text }

/-- The lifecycle (70_reset_and_hazards.md section 3, R114 and R115): after a finalizing command that ran, every command
but `INIT` faults with `UsageViolation` and `INIT` makes a fresh instance. -/
def Obligations.FinalizedInstanceTakesOnlyInit : Prop :=
  ∀ (s t : State) (i : Instr), s.fault = false → s.phase = .absorb →
    i = .digest ∨ i = .digestHex ∨ i = .digestHexUc → exec i s = .next t →
    (∀ j, j ≠ .init → exec j t = .next { t with fault := true, fcode := .usageViolation }) ∧
    (∃ u, exec .init t = .next u ∧ u.phase = .absorb ∧ Absorbed [] u ∧ u.dout = t.dout ∧ u.din = t.din)

/-! ### The Hex Formatter (43_hex.md) -/

/-- R86: the characters of the sixteen digit values in both cases. -/
def Obligations.HexDigitTable : Prop :=
  (List.range 16).map (fun v => hexDigit (BitVec.ofNat 4 v) false) =
    ['0', '1', '2', '3', '4', '5', '6', '7', '8', '9', 'a', 'b', 'c', 'd', 'e', 'f'] ∧
  (List.range 16).map (fun v => hexDigit (BitVec.ofNat 4 v) true) =
    ['0', '1', '2', '3', '4', '5', '6', '7', '8', '9', 'A', 'B', 'C', 'D', 'E', 'F']

/-- R87: exactly 40 characters, two for each byte, most significant nibble first. -/
def Obligations.ToHexRendersNibblesInOrder : Prop :=
  ∀ (digest : List Byte) (uppercase : Bool), digest.length = 20 →
    (toHex digest uppercase).length = 40 ∧
      ∀ j, j < 20 →
        (toHex digest uppercase)[2 * j]? =
            some (hexDigit (BitVec.ofNat 4 ((digest.getD j 0).toNat / 16)) uppercase) ∧
          (toHex digest uppercase)[2 * j + 1]? =
            some (hexDigit (BitVec.ofNat 4 ((digest.getD j 0).toNat % 16)) uppercase)

/-- R88, the byte codes of the characters (general knowledge, log 11). -/
def Obligations.HexCharacterCodes : Prop :=
  ∀ (v : Nat) (uppercase : Bool), v < 16 →
    (asciiCode (hexDigit (BitVec.ofNat 4 v) uppercase)).toNat =
      if v < 10 then 0x30 + v else (if uppercase then 0x41 else 0x61) + (v - 10)

/-- Case consistency (43_hex.md section 3, R91), with the ASCII codes of R88 (general knowledge, log 11): the two texts
are as long as each other, at every position the byte codes are equal and those of a decimal digit, or those of one
letter in its two cases, 0x20 apart; and reading either text back gives the digest. -/
def Obligations.HexTextsDifferInCaseOnly : Prop :=
  ∀ digest : List Byte,
    (hexBytes false digest).length = 2 * digest.length ∧ (hexBytes true digest).length = 2 * digest.length ∧
    (∀ (j : Nat) (lo up : Byte), (hexBytes false digest)[j]? = some lo → (hexBytes true digest)[j]? = some up →
      (lo = up ∧ 0x30 ≤ lo.toNat ∧ lo.toNat ≤ 0x39) ∨
        (0x41 ≤ up.toNat ∧ up.toNat ≤ 0x46 ∧ lo.toNat = up.toNat + 0x20)) ∧
    parseHex (hexBytes false digest) = digest ∧ parseHex (hexBytes true digest) = digest

/-! ### Pseudo-commands (44_oneshot.md) -/

/-- R97: the pieces of `INGEST_LONG x`: at least one, as many as 65535 divides into the span rounded up, all but the last
exactly 65535 bytes long, together the span; and the words and payloads the host sends for them, each payload before its
word by the model's choice (log 22). -/
def Obligations.IngestLongSplitsTheSpan : Prop :=
  ∀ x : List Byte, ∃ pieces : List (List Byte),
    pieces.flatten = x ∧ pieces.length = max 1 ((x.length + 65534) / 65535) ∧
    (∀ k, k + 1 < pieces.length → (pieces.getD k []).length = 65535) ∧
    (pieces.getLastD []).length = x.length - 65535 * (pieces.length - 1) ∧
    (∀ p, p ∈ pieces → p.length ≤ 65535) ∧
    sendIngestLong x =
      pieces.flatMap (fun p => [.supply p, .issue (BitVec.ofNat 32 (0x02000000 + p.length))])

/-- R53, the assembler (the codes of a text are those of log 11; a character without one is log 17): what each operand
form denotes, the word and payload of an `INGEST`, the payload first by the model's choice (log 22), and the refusal of a
span longer than 65535 bytes. -/
def Obligations.AssemblerSendsIngest : Prop :=
  (∀ chars : List Char, (∀ c ∈ chars, c.toNat < 128) →
    (SpanOperand.text chars).bytes = some (chars.map (fun c => BitVec.ofNat 8 c.toNat))) ∧
  (∀ bytes : List Byte, (SpanOperand.hex bytes).bytes = some bytes) ∧
  (∀ (n : Nat) (b : Byte), (SpanOperand.copies n b).bytes = some (List.replicate n b)) ∧
  (∀ (x y : SpanOperand) (bx bv : List Byte), x.bytes = some bx → y.bytes = some bv →
    (SpanOperand.join x y).bytes = some (bx ++ bv)) ∧
  (∀ (x : SpanOperand) (bytes : List Byte), x.bytes = some bytes →
    assembleLine (.ingest x) =
      if bytes.length ≤ 65535 then
        some [.supply bytes, .issue (BitVec.ofNat 32 (0x02000000 + bytes.length))]
      else none)

/-- R54: each pseudo-command is its fixed sequence of commands; the pieces of `INGEST_LONG` are those of R97. The empty
supply before a word without a payload, and each payload before its word, are the model's choice (log 22). -/
def Obligations.PseudoCommandsExpand : Prop :=
  ∀ (x : SpanOperand) (bytes : List Byte) (init long : List HostAction), x.bytes = some bytes →
    init = [.supply [], .issue 0x01000000] → long = sendIngestLong bytes →
    assembleLine .new = some init ∧
    assembleLine (.newWith x) = some (init ++ long) ∧
    assembleLine (.ingestLong x) = some long ∧
    assembleLine (.sha1Raw x) = some (init ++ long ++ [.supply [], .issue 0x03000000]) ∧
    assembleLine (.sha1Hex x) = some (init ++ long ++ [.supply [], .issue 0x04000000]) ∧
    assembleLine (.sha1HexUc x) = some (init ++ long ++ [.supply [], .issue 0x05000000])

/-- The one-shot forms (44_oneshot.md R93 to R95, R97 and R98): on any non-faulted engine, whatever instance it holds, with
the span `x` at the head of `DIN`: `INIT`, then one `INGEST` for each piece of any split of `x` into pieces of at most 65535
bytes, then a finalizing command complete, every one of them a command some word encodes, and emit the digest of `x` alone.
The split of `INGEST_LONG` is such a split. The emission is that of R82, R89 and R90, its hexadecimal byte codes log 11's. -/
def Obligations.OneShotDigestDependsOnTheSpanAlone : Prop :=
  (∀ (s : State) (x rest : List Byte) (pieces : List (List Byte)) (i : Instr) (text : List Byte), s.fault = false →
    s.din = x ++ rest → pieces.flatten = x → (∀ p ∈ pieces, p.length ≤ 65535) →
    (i = .digest ∧ text = sha1 x) ∨ (i = .digestHex ∧ text = hexBytes false (sha1 x)) ∨
      (i = .digestHexUc ∧ text = hexBytes true (sha1 x)) →
    (∀ j ∈ [Instr.init] ++ pieces.map (fun p => .ingest p.length) ++ [i], j.wellFormed = true) ∧
    ∃ t, execAll ([.init] ++ pieces.map (fun p => .ingest p.length) ++ [i]) s = .next t ∧
      t.dout = s.dout ++ text ∧ t.din = rest ∧ t.phase = .done ∧ t.fault = false) ∧
  (∀ x : List Byte, (longPieces x.length x).flatten = x ∧ ∀ p ∈ longPieces x.length x, p.length ≤ 65535)

/-! ### Faults and the order of the checks (60_exceptions.md) -/

/-- R101: an illegal word on a non-faulted engine sets `FAULT` and `FCODE` and changes nothing else. (Of the host's side,
`CMD` and `CP`, this statement says nothing; `StepFollowsTheCheckOrder` does.) -/
def Obligations.IllegalCommandFault : Prop :=
  ∀ (s : State) (w : Word) (e : IllegalWord), s.fault = false → s.cmd = some w → decode w = .error e →
    ∃ t, step s = .next t ∧ t = { s with fault := true, fcode := .illegalCommand, cmd := t.cmd, cp := t.cp }

/-- R102: in phase `DONE` every legal command but `INIT` sets `FAULT` and `FCODE` and changes nothing else (the payload
stays on `DIN`, `H` keeps the digest words, nothing is emitted); `INIT` is no violation. -/
def Obligations.UsageViolationInPhaseDone : Prop :=
  ∀ s : State, s.fault = false → s.phase = .done →
    (∀ i : Instr, i ≠ .init → exec i s = .next { s with fault := true, fcode := .usageViolation }) ∧
    ∃ t, exec .init s = .next t ∧ t.fault = false ∧ t.fcode = s.fcode ∧ t.phase = .absorb

/-- R103: a faulted engine refuses every command word, legal or not: the host's `CP` advances, and nothing else of the
state but the word on `CMD` changes; it stays faulted, with the first fault's code, through every step but a RESET; such a state is
never final. -/
def Obligations.FaultedEngineRefusesEverything : Prop :=
  ∀ s : State, s.fault = true →
    (∀ i : Instr, exec i s = .next s) ∧
    (∀ w, s.cmd = some w → ∃ t, step s = .next t ∧ t = { s with cmd := t.cmd, cp := s.cp + 1 }) ∧
    (∀ t, step s = .next t →
      (t.fault = true ∧ t.fcode = s.fcode) ∨ (s.cmd = none ∧ ∃ rest, s.host = .reset :: rest)) ∧
    ¬ s.isFinal

/-- The order of the checks for one command word (60_exceptions.md section 3, R104), first match first. Where R104 says
stuck, the host acts (the model's reading, logs 1 and 2); that the word leaves `CMD` and `CP` advances is log 9's. -/
def Obligations.StepFollowsTheCheckOrder : Prop :=
  ∀ (s : State) (w : Word), s.cmd = some w →
    step s =
      if s.fault = true then .next { s with cmd := none, cp := s.cp + 1 }
      else match decode w with
        | .error _ => .next { s with fault := true, fcode := .illegalCommand, cmd := none, cp := s.cp + 1 }
        | .ok i =>
          if i ≠ .init ∧ s.phase = .done then
            .next { s with fault := true, fcode := .usageViolation, cmd := none, cp := s.cp + 1 }
          else if s.din.length < takenCount i then hostStep s
          else exec i { s with cmd := none, cp := s.cp + 1 }

/-! ### Steps -/

/-- A step runs the decoded command: on a non-faulted engine the word on `CMD` that decodes to `i` is taken, `CP`
advances (log 9), and the step is `exec` of `i`, unless `i` is an `INGEST` that has no step (R107), when the step is the
host's next act: the model's reading of "stuck" (logs 1 and 2). -/
def Obligations.StepRunsTheDecodedCommand : Prop :=
  ∀ (s : State) (w : Word) (i : Instr), s.fault = false → s.cmd = some w → decode w = .ok i →
    (exec i { s with cmd := none, cp := s.cp + 1 } ≠ .fault .stuckPayloadShort →
      step s = exec i { s with cmd := none, cp := s.cp + 1 }) ∧
    (exec i { s with cmd := none, cp := s.cp + 1 } = .fault .stuckPayloadShort → step s = hostStep s)

/-- A command placed for the next step (log 10) is decoded, run and, for an `INGEST`, given a payload of zero bytes. That the
word leaves `CMD` and `CP` advances when it is taken is the model's choice (log 9). -/
def Obligations.PlacedWordRunsItsCommand : Prop :=
  ∀ (s : State) (i : Instr), i.wellFormed = true → s.fault = false →
    decodeTableWord 32 (encode i).toNat = some i ∧
    step (s.withFetchWord 32 (encode i).toNat) =
      exec i { s with din := List.replicate (takenCount i) 0x00 ++ s.din, cmd := none, cp := s.cp + 1 }

/-- The acts of the host when nothing is on `CMD` (20_memory.md R31, log 1): a supply appends to `DIN`, an issued word
stands on `CMD`, and with nothing to do the engine waits (log 3). -/
def Obligations.HostActsWhenNoCommandIsPending : Prop :=
  ∀ s : State, s.cmd = none →
    (s.host = [] → step s = .next s) ∧
    (∀ bytes rest, s.host = .supply bytes :: rest → step s = .next { s with din := s.din ++ bytes, host := rest }) ∧
    (∀ w rest, s.host = .issue w :: rest → step s = .next { s with cmd := some w, host := rest })

/-! ### Whole-machine rules -/

/-- The invariant of 10_state.md section 7 (R24) holds after reset. -/
def Obligations.ResetMeetsTheInvariant : Prop := Inv State.reset

/-- Every step keeps the invariant of 10_state.md section 7 (R24), from every state that meets it. -/
def Obligations.EveryStepKeepsTheInvariant : Prop :=
  ∀ s t : State, Inv s → step s = .next t → Inv t

/-- No byte of `BUF` is read that has not been written, and no index outside 0 to 63 is touched (10_state.md section 7,
R24 item 4): in a state that meets the invariant neither stop can happen. -/
def Obligations.NoUnwrittenByteIsEverRead : Prop :=
  ∀ s : State, Inv s → step s ≠ .fault .bufUnwritten ∧ step s ≠ .fault .bufIndex

/-- Every command has a next state from every state that meets the invariant, but for an `INGEST` that waits for its
payload (R107), which stops by name (log 2). -/
def Obligations.EveryCommandCompletes : Prop :=
  ∀ (s : State) (i : Instr), Inv s →
    (∃ t, exec i s = .next t ∧ Inv t) ∨
      (s.fault = false ∧ s.phase = .absorb ∧ s.din.length < takenCount i ∧ exec i s = .fault .stuckPayloadShort)

/-- R32: bytes of `DOUT` are never changed or removed but by RESET; a command that runs appends its 20 or 40 bytes or
nothing; a faulting or refused command appends nothing; `INIT` does not clear `DOUT`, reset does. -/
def Obligations.DoutIsAppendOnly : Prop :=
  (∀ (s t : State) (i : Instr), exec i s = .next t →
    ∃ out, t.dout = s.dout ++ out ∧
      out.length = if s.fault = false ∧ (i = .init ∨ s.phase = .absorb) then emittedCount i else 0) ∧
  (∀ s t : State, step s = .next t → (∀ rest, s.host ≠ .reset :: rest) → s.dout <+: t.dout) ∧
  (∀ (s : State) (rest : List HostAction), s.AwaitsHost → s.host = .reset :: rest →
    ∃ t, step s = .next t ∧ t.dout = []) ∧
  State.reset.dout = []

/-- `DIN` is consumed from its head, only by an `INGEST` that runs, and by exactly `LEN` bytes (20_memory.md section 1,
R31); surplus bytes stay for the next payload (R117). -/
def Obligations.OnlyIngestTakesFromDin : Prop :=
  ∀ (s t : State) (i : Instr), exec i s = .next t →
    t.din = if s.fault = false ∧ s.phase = .absorb then s.din.drop (takenCount i) else s.din

/-- R19: `PHASE` is written by `INIT` (to `ABSORB`), by a finalizing command that runs (to `DONE`) and by reset, and by
nothing else. -/
def Obligations.PhaseFollowsTheLifecycle : Prop :=
  (∀ (s t : State) (i : Instr), exec i s = .next t →
    t.phase =
      if s.fault = true then s.phase
      else match i with
        | .init => .absorb
        | .ingest _ => s.phase
        | .digest => .done
        | .digestHex => .done
        | .digestHexUc => .done) ∧
  (∀ s t : State, s.AwaitsHost → step s = .next t →
    t.phase = match s.host with
      | .reset :: _ => .absorb
      | _ => s.phase)

/-- The stale bytes of `BUF` influence nothing (10_state.md section 7, R25): two states that differ only in them do the
same under every command, up to stale bytes, with the same output. -/
def Obligations.StaleBytesInfluenceNothing : Prop :=
  ∀ (s t : State) (i : Instr), SameButStale s t → OutcomeSameButStale (exec i s) (exec i t)

/-- Blocks share nothing (60_exceptions.md section 6, R110): a step of one block leaves every other block as it was, and
does to that block what the machine's step does. -/
def Obligations.BlocksShareNothing : Prop :=
  ∀ (blocks after : List State) (k : Nat), stepBlock k blocks = .next after →
    (∀ j, j ≠ k → after[j]? = blocks[j]?) ∧
    (∀ s t, blocks[k]? = some s → step s = .next t → after[k]? = some t)

/-! ### The constants and overlapping commands -/

/-- The read-only constants of 10_state.md section 4 (R21) and 00_scope.md section 4 (R3) are the sizes the engine works
with: `DIGEST_LEN` is 20, the length of the serialised digest and what a `DIGEST` that runs appends to `DOUT`; `BLOCK_SIZE`
is 64, the bytes a COMPRESS of `BUF` reads. If one of those holds no value the model stops (log 5). -/
def Obligations.ConstantsAreTheDigestAndBlockSizes : Prop :=
  Config.digestLen = 20 ∧ Config.blockSize = 64 ∧
  (∀ h : RunningState, (serializeDigest h).length = Config.digestLen) ∧
  (∀ s t : State, s.fault = false → s.phase = .absorb → exec .digest s = .next t →
    t.dout.length = s.dout.length + Config.digestLen) ∧
  (∀ (s : State) (block : List Byte), Memory.readList Config.blockSize 0 s.buf = some block →
    block.length = Config.blockSize ∧ s.compressBuf = .ok (s.compressBlock block)) ∧
  (∀ s : State, Memory.readList Config.blockSize 0 s.buf = none → s.compressBuf = .error .bufUnwritten)

/-- A second word presented while an `INGEST` waits on `CMD` (70_reset_and_hazards.md section 3, R116): the spec gives no
meaning to it and says that a model should refuse to represent it; the step is a refusal by name (log 4). -/
def Obligations.OverlappingWordIsRefused : Prop :=
  ∀ (s : State) (w v : Word) (len : Nat) (rest : List HostAction), s.fault = false → s.phase = .absorb →
    s.cmd = some w → decode w = .ok (.ingest len) → s.din.length < len → s.host = .issue v :: rest →
    step s = .refused .overlappingCommand
end

