-- ==== Sys2Proof/Laws/Memory.lean ====
section
/-! SUPPORT. Laws/Memory.lean: the laws of BUF: a read after a write, what a write leaves alone, the canonical form. -/

namespace Sys2Proof.Machine

@[simp] theorem Memory.read_nil (i : Nat) : Memory.read i [] = none := rfl

/-- A read after a write: the byte written at that index, the old byte at any other. -/
theorem Memory.read_write (i j : Nat) (v : Byte) (m : Memory) :
    Memory.read j (Memory.write i v m) = if j = i then some v else Memory.read j m := by
  induction m with
  | nil => simp [Memory.write, Memory.read, eq_comm]
  | cons c rest ih =>
    obtain ⟨a, u⟩ := c
    simp only [Memory.write]
    split
    · by_cases h : j = i
      · simp [Memory.read, h]
      · simp [Memory.read, h, Ne.symm h]
    · split
      · next h =>
        subst h
        by_cases h' : j = i
        · simp [Memory.read, h']
        · simp [Memory.read, h', Ne.symm h']
      · next h =>
        simp only [Memory.read, ih]
        by_cases h' : a = j
        · subst h'; simp [Ne.symm h]
        · simp [h']

/-- What consecutive writes from `i` up leave at index `j`. -/
theorem Memory.read_writeAll (i j : Nat) (vs : List Byte) (m : Memory) :
    Memory.read j (Memory.writeAll i vs m) =
      if i ≤ j ∧ j < i + vs.length then vs[j - i]? else Memory.read j m := by
  induction vs generalizing i m with
  | nil => simp [Memory.writeAll]
  | cons v vs ih =>
    simp only [Memory.writeAll, ih, Memory.read_write, List.length_cons]
    by_cases h1 : j = i
    · subst h1; simp
    · by_cases h2 : i + 1 ≤ j ∧ j < i + 1 + vs.length
      · obtain ⟨k, rfl⟩ : ∃ k, j = i + 1 + k := ⟨j - (i + 1), by omega⟩
        have e : i + 1 + k - i = k + 1 := by omega
        simp [h2, e, show i ≤ i + 1 + k by omega, show i + 1 + k < i + (vs.length + 1) by omega]
      · simp only [h2, h1, if_false]
        rw [if_neg (by omega)]

theorem Memory.read_writeAll_of_lt {i j : Nat} (vs : List Byte) (m : Memory) (h : j < i) :
    Memory.read j (Memory.writeAll i vs m) = Memory.read j m := by
  rw [Memory.read_writeAll, if_neg (by omega)]

theorem Memory.read_writeAll_of_ge {i j : Nat} (vs : List Byte) (m : Memory) (h : i + vs.length ≤ j) :
    Memory.read j (Memory.writeAll i vs m) = Memory.read j m := by
  rw [Memory.read_writeAll, if_neg (by omega)]

/-- Everything a store can do. -/
theorem Memory.store_eq_ok {i : Nat} {vs : List Byte} {m m' : Memory} :
    Memory.store i vs m = .ok m' ↔ i + vs.length ≤ 64 ∧ m' = Memory.writeAll i vs m := by
  unfold Memory.store Config.blockSize
  split <;> simp [*, eq_comm]

theorem Memory.store_of_le {i : Nat} {vs : List Byte} (m : Memory) (h : i + vs.length ≤ 64) :
    Memory.store i vs m = .ok (Memory.writeAll i vs m) := by
  simp [Memory.store, Config.blockSize, h]

theorem Memory.store_of_gt {i : Nat} {vs : List Byte} (m : Memory) (h : 64 < i + vs.length) :
    Memory.store i vs m = .error .bufIndex := by
  simp [Memory.store, Config.blockSize, Nat.not_le.2 h]

/-! ### The canonical form -/

theorem Memory.wfFrom_mono {lo lo' : Nat} (h : lo' ≤ lo) {m : Memory} (hm : Memory.wfFrom lo m = true) :
    Memory.wfFrom lo' m = true := by
  cases m with
  | nil => rfl
  | cons c rest =>
    simp only [Memory.wfFrom, Bool.and_eq_true, decide_eq_true_eq] at hm ⊢
    exact ⟨⟨by omega, hm.1.2⟩, hm.2⟩

/-- A write in range keeps the canonical form. -/
theorem Memory.wfFrom_write {lo i : Nat} (v : Byte) {m : Memory} (hm : Memory.wfFrom lo m = true) (hlo : lo ≤ i)
    (hi : i < 64) : Memory.wfFrom lo (Memory.write i v m) = true := by
  induction m generalizing lo with
  | nil => simp [Memory.write, Memory.wfFrom, Config.blockSize, hlo, hi]
  | cons c rest ih =>
    obtain ⟨a, u⟩ := c
    simp only [Memory.wfFrom, Config.blockSize, Bool.and_eq_true, decide_eq_true_eq] at hm
    obtain ⟨⟨h1, h2⟩, h3⟩ := hm
    simp only [Memory.write]
    split
    · next h =>
      simp only [Memory.wfFrom, Config.blockSize, Bool.and_eq_true, decide_eq_true_eq]
      exact ⟨⟨hlo, decide_eq_true hi⟩, ⟨by omega, h2⟩, h3⟩
    · split
      · next h =>
        subst h
        simp only [Memory.wfFrom, Config.blockSize, Bool.and_eq_true, decide_eq_true_eq]
        exact ⟨⟨hlo, decide_eq_true hi⟩, h3⟩
      · simp only [Memory.wfFrom, Config.blockSize, Bool.and_eq_true, decide_eq_true_eq]
        exact ⟨⟨h1, h2⟩, ih h3 (by omega)⟩

theorem Memory.wf_writeAll {i : Nat} (vs : List Byte) {m : Memory} (hm : Memory.wf m = true) (h : i + vs.length ≤ 64) :
    Memory.wf (Memory.writeAll i vs m) = true := by
  induction vs generalizing i m with
  | nil => exact hm
  | cons v vs ih =>
    simp only [List.length_cons] at h
    exact ih (Memory.wfFrom_write v hm (by omega) (by omega)) (by omega)

/-- Every store that succeeds keeps the canonical form. -/
theorem Memory.wf_store {i : Nat} {vs : List Byte} {m m' : Memory} (hm : Memory.wf m = true)
    (h : Memory.store i vs m = .ok m') : Memory.wf m' = true := by
  obtain ⟨h1, rfl⟩ := Memory.store_eq_ok.1 h
  exact Memory.wf_writeAll vs hm h1

theorem Memory.read_eq_none_of_wfFrom {lo i : Nat} {m : Memory} (hm : Memory.wfFrom lo m = true) (h : i < lo) :
    Memory.read i m = none := by
  induction m generalizing lo with
  | nil => rfl
  | cons c rest ih =>
    obtain ⟨a, u⟩ := c
    simp only [Memory.wfFrom, Bool.and_eq_true, decide_eq_true_eq] at hm
    simp only [Memory.read]
    rw [if_neg (by omega)]
    exact ih hm.2 (by omega)

/-- Equal memories are equal data: two canonical memories that read alike are the same list. -/
theorem Memory.ext_of_wfFrom {lo : Nat} {m n : Memory} (hm : Memory.wfFrom lo m = true) (hn : Memory.wfFrom lo n = true)
    (h : ∀ i, Memory.read i m = Memory.read i n) : m = n := by
  induction m generalizing lo n with
  | nil =>
    cases n with
    | nil => rfl
    | cons c rest => have := h c.1; simp [Memory.read] at this
  | cons c rest ih =>
    obtain ⟨a, u⟩ := c
    cases n with
    | nil => have := h a; simp [Memory.read] at this
    | cons d rest' =>
      obtain ⟨b, w⟩ := d
      simp only [Memory.wfFrom, Bool.and_eq_true, decide_eq_true_eq] at hm hn
      obtain hab | rfl | hab := Nat.lt_trichotomy a b
      · have ha := h a
        simp only [Memory.read, if_true, if_neg (Nat.ne_of_gt hab)] at ha
        rw [Memory.read_eq_none_of_wfFrom hn.2 (by omega)] at ha
        cases ha
      · have ha := h a
        simp only [Memory.read, if_true, Option.some.injEq] at ha
        subst ha
        congr 1
        refine ih hm.2 hn.2 fun i => ?_
        by_cases hi : a = i
        · subst hi
          rw [Memory.read_eq_none_of_wfFrom hm.2 (by omega), Memory.read_eq_none_of_wfFrom hn.2 (by omega)]
        · simpa [Memory.read, hi] using h i
      · have hb := h b
        simp only [Memory.read, if_true, if_neg (Nat.ne_of_gt hab)] at hb
        rw [Memory.read_eq_none_of_wfFrom hm.2 (by omega)] at hb
        cases hb

/-! ### Reading several bytes -/

@[simp] theorem Memory.readList_zero (i : Nat) (m : Memory) : Memory.readList 0 i m = some [] := rfl

theorem Memory.readList_succ_eq_some {n i : Nat} {m : Memory} {bs : List Byte} :
    Memory.readList (n + 1) i m = some bs ↔
      ∃ v vs, Memory.read i m = some v ∧ Memory.readList n (i + 1) m = some vs ∧ bs = v :: vs := by
  simp only [Memory.readList]
  split
  · next v vs h1 h2 => simp [h1, h2, eq_comm]
  · next h =>
    simp only [reduceCtorEq, false_iff, not_exists, not_and]
    intro v vs h1 h2
    exact absurd h2 (by simpa [h1] using h v vs h1)

/-- A list read has the length asked for. -/
theorem Memory.length_of_readList {n i : Nat} {m : Memory} {bs : List Byte} (h : Memory.readList n i m = some bs) :
    bs.length = n := by
  induction n generalizing i bs with
  | zero => simp at h; simp [← h]
  | succ n ih =>
    obtain ⟨v, vs, -, h2, rfl⟩ := Memory.readList_succ_eq_some.1 h
    simp [ih h2]

/-- Reading depends on the bytes of the range only. -/
theorem Memory.readList_congr {n i : Nat} {m m' : Memory}
    (h : ∀ j, i ≤ j → j < i + n → Memory.read j m = Memory.read j m') :
    Memory.readList n i m = Memory.readList n i m' := by
  induction n generalizing i with
  | zero => rfl
  | succ n ih =>
    simp only [Memory.readList]
    rw [h i (by omega) (by omega), ih fun j h1 h2 => h j (by omega) (by omega)]

/-- Two adjacent ranges read as one. -/
theorem Memory.readList_append {a b i : Nat} {m : Memory} {xs ys : List Byte} (hx : Memory.readList a i m = some xs)
    (hy : Memory.readList b (i + a) m = some ys) : Memory.readList (a + b) i m = some (xs ++ ys) := by
  induction a generalizing i xs with
  | zero => simp at hx; subst hx; simpa using hy
  | succ a ih =>
    obtain ⟨v, vs, h1, h2, rfl⟩ := Memory.readList_succ_eq_some.1 hx
    rw [show a + 1 + b = (a + b) + 1 by omega]
    exact Memory.readList_succ_eq_some.2
      ⟨v, vs ++ ys, h1, ih h2 (by rwa [show i + 1 + a = i + (a + 1) by omega]), rfl⟩

/-- A written range reads as what was written. -/
theorem Memory.readList_writeAll (i : Nat) (vs : List Byte) (m : Memory) :
    Memory.readList vs.length i (Memory.writeAll i vs m) = some vs := by
  induction vs generalizing i m with
  | nil => rfl
  | cons v vs ih =>
    refine Memory.readList_succ_eq_some.2 ⟨v, vs, ?_, ih (i + 1) _, rfl⟩
    simp [Memory.writeAll, Memory.read_writeAll_of_lt, Memory.read_write]

/-- A write above a range leaves the range as it was. -/
theorem Memory.readList_writeAll_above {n i j : Nat} (vs : List Byte) (m : Memory) (h : i + n ≤ j) :
    Memory.readList n i (Memory.writeAll j vs m) = Memory.readList n i m :=
  Memory.readList_congr fun _ _ h2 => Memory.read_writeAll_of_lt vs m (by omega)

/-- Bytes appended after `c` live ones: the live bytes are then the old ones and the new ones. -/
theorem Memory.readList_writeAll_append {c n : Nat} {m : Memory} {live : List Byte} (vs : List Byte)
    (h : Memory.readList c 0 m = some live) (hn : n = c + vs.length) :
    Memory.readList n 0 (Memory.writeAll c vs m) = some (live ++ vs) := by
  subst hn
  refine Memory.readList_append ?_ ?_
  · rw [Memory.readList_writeAll_above vs m (by omega), h]
  · simpa using Memory.readList_writeAll c vs m

/-- The bytes of a range that reads as a list, one by one. -/
theorem Memory.read_of_readList {n i : Nat} {m : Memory} {bs : List Byte} (h : Memory.readList n i m = some bs)
    {k : Nat} (hk : k < n) : Memory.read (i + k) m = bs[k]? := by
  induction n generalizing i bs k with
  | zero => omega
  | succ n ih =>
    obtain ⟨v, vs, h1, h2, rfl⟩ := Memory.readList_succ_eq_some.1 h
    cases k with
    | zero => simpa using h1
    | succ k =>
      have := ih h2 (k := k) (by omega)
      simpa [show i + 1 + k = i + (k + 1) by omega] using this

theorem Memory.readList_eq_none_of_prefix {a b i : Nat} {m : Memory} (h : Memory.readList a i m = none) :
    Memory.readList (a + b) i m = none := by
  induction a generalizing i with
  | zero => simp at h
  | succ a ih =>
    rw [show a + 1 + b = a + b + 1 by omega]
    cases hn : Memory.readList (a + b + 1) i m with
    | none => rfl
    | some bs =>
      obtain ⟨v, vs, h1, h2, -⟩ := Memory.readList_succ_eq_some.1 hn
      cases hx : Memory.readList a (i + 1) m with
      | none => rw [ih hx] at h2; cases h2
      | some x => simp [Memory.readList, h1, hx] at h

/-- Bytes appended to two buffers that agree on their live bytes leave two that do. -/
theorem Memory.readList_writeAll_congr {c n : Nat} {m m' : Memory} (vs : List Byte)
    (h : Memory.readList c 0 m = Memory.readList c 0 m') (hn : n = c + vs.length) :
    Memory.readList n 0 (Memory.writeAll c vs m) = Memory.readList n 0 (Memory.writeAll c vs m') := by
  subst hn
  cases hm : Memory.readList c 0 m with
  | some live =>
    rw [Memory.readList_writeAll_append vs hm rfl, Memory.readList_writeAll_append vs (h ▸ hm) rfl]
  | none =>
    rw [Memory.readList_eq_none_of_prefix, Memory.readList_eq_none_of_prefix]
    · rw [Memory.readList_writeAll_above _ _ (by omega), ← h, hm]
    · rw [Memory.readList_writeAll_above _ _ (by omega), hm]

end Sys2Proof.Machine
end

