-- ==== Sys2Proof/Laws/Message.lean ====
section
/-! SUPPORT. Laws/Message.lean: the laws of compressing a message block by block. -/

namespace Sys2Proof.Machine

@[simp] theorem compressBlocks_zero (h : RunningState) (m : List Byte) : compressBlocks 0 h m = h := rfl

theorem compressBlocks_succ (q : Nat) (h : RunningState) (m : List Byte) :
    compressBlocks (q + 1) h m = compressBlocks q (compress h (m.take 64)) (m.drop 64) := rfl

/-- Only the blocks compressed matter, not what follows them. -/
theorem compressBlocks_append {q : Nat} {h : RunningState} {m : List Byte} (x : List Byte) (hq : 64 * q ≤ m.length) :
    compressBlocks q h (m ++ x) = compressBlocks q h m := by
  induction q generalizing h m with
  | zero => rfl
  | succ q ih =>
    rw [compressBlocks_succ, compressBlocks_succ, List.take_append_of_le_length (by omega),
      List.drop_append_of_le_length (by omega), ih (by simp; omega)]

/-- Compressing `q + p` blocks is compressing `q` and then the next `p`. -/
theorem compressBlocks_add (q p : Nat) (h : RunningState) (m : List Byte) :
    compressBlocks (q + p) h m = compressBlocks p (compressBlocks q h m) (m.drop (64 * q)) := by
  induction q generalizing h m with
  | zero => simp
  | succ q ih =>
    rw [show q + 1 + p = (q + p) + 1 by omega, compressBlocks_succ, compressBlocks_succ, ih, List.drop_drop]
    congr 2; omega

theorem length_store64be (v : DWord) : (store64be v).length = 8 := rfl

theorem length_store32be (w : Word) : (store32be w).length = 4 := rfl

theorem length_serializeDigest (h : RunningState) : (serializeDigest h).length = 20 := rfl

end Sys2Proof.Machine
end

