-- ==== Sys2Proof/Laws/State.lean ====
section
/-! SUPPORT. Laws/State.lean: what each named update of State does to each field, one lemma per field and update. -/

namespace Sys2Proof.Machine

@[simp] theorem State.compressBlock_h (block : List Byte) (s : State) : (s.compressBlock block).h = compress s.h block := rfl
@[simp] theorem State.compressBlock_buf (block : List Byte) (s : State) : (s.compressBlock block).buf = s.buf := rfl
@[simp] theorem State.compressBlock_curlen (block : List Byte) (s : State) : (s.compressBlock block).curlen = s.curlen := rfl
@[simp] theorem State.compressBlock_length (block : List Byte) (s : State) : (s.compressBlock block).length = s.length := rfl
@[simp] theorem State.compressBlock_phase (block : List Byte) (s : State) : (s.compressBlock block).phase = s.phase := rfl
@[simp] theorem State.compressBlock_fault (block : List Byte) (s : State) : (s.compressBlock block).fault = s.fault := rfl
@[simp] theorem State.compressBlock_fcode (block : List Byte) (s : State) : (s.compressBlock block).fcode = s.fcode := rfl
@[simp] theorem State.compressBlock_din (block : List Byte) (s : State) : (s.compressBlock block).din = s.din := rfl
@[simp] theorem State.compressBlock_dout (block : List Byte) (s : State) : (s.compressBlock block).dout = s.dout := rfl
@[simp] theorem State.compressBlock_cmd (block : List Byte) (s : State) : (s.compressBlock block).cmd = s.cmd := rfl
@[simp] theorem State.compressBlock_host (block : List Byte) (s : State) : (s.compressBlock block).host = s.host := rfl
@[simp] theorem State.compressBlock_cp (block : List Byte) (s : State) : (s.compressBlock block).cp = s.cp := rfl

@[simp] theorem State.addLength_h (n : DWord) (s : State) : (s.addLength n).h = s.h := rfl
@[simp] theorem State.addLength_buf (n : DWord) (s : State) : (s.addLength n).buf = s.buf := rfl
@[simp] theorem State.addLength_curlen (n : DWord) (s : State) : (s.addLength n).curlen = s.curlen := rfl
@[simp] theorem State.addLength_length (n : DWord) (s : State) : (s.addLength n).length = add64 s.length n := rfl
@[simp] theorem State.addLength_phase (n : DWord) (s : State) : (s.addLength n).phase = s.phase := rfl
@[simp] theorem State.addLength_fault (n : DWord) (s : State) : (s.addLength n).fault = s.fault := rfl
@[simp] theorem State.addLength_fcode (n : DWord) (s : State) : (s.addLength n).fcode = s.fcode := rfl
@[simp] theorem State.addLength_din (n : DWord) (s : State) : (s.addLength n).din = s.din := rfl
@[simp] theorem State.addLength_dout (n : DWord) (s : State) : (s.addLength n).dout = s.dout := rfl
@[simp] theorem State.addLength_cmd (n : DWord) (s : State) : (s.addLength n).cmd = s.cmd := rfl
@[simp] theorem State.addLength_host (n : DWord) (s : State) : (s.addLength n).host = s.host := rfl
@[simp] theorem State.addLength_cp (n : DWord) (s : State) : (s.addLength n).cp = s.cp := rfl

@[simp] theorem State.setCurlen_h (n : BitVec 7) (s : State) : (s.setCurlen n).h = s.h := rfl
@[simp] theorem State.setCurlen_buf (n : BitVec 7) (s : State) : (s.setCurlen n).buf = s.buf := rfl
@[simp] theorem State.setCurlen_curlen (n : BitVec 7) (s : State) : (s.setCurlen n).curlen = n := rfl
@[simp] theorem State.setCurlen_length (n : BitVec 7) (s : State) : (s.setCurlen n).length = s.length := rfl
@[simp] theorem State.setCurlen_phase (n : BitVec 7) (s : State) : (s.setCurlen n).phase = s.phase := rfl
@[simp] theorem State.setCurlen_fault (n : BitVec 7) (s : State) : (s.setCurlen n).fault = s.fault := rfl
@[simp] theorem State.setCurlen_fcode (n : BitVec 7) (s : State) : (s.setCurlen n).fcode = s.fcode := rfl
@[simp] theorem State.setCurlen_din (n : BitVec 7) (s : State) : (s.setCurlen n).din = s.din := rfl
@[simp] theorem State.setCurlen_dout (n : BitVec 7) (s : State) : (s.setCurlen n).dout = s.dout := rfl
@[simp] theorem State.setCurlen_cmd (n : BitVec 7) (s : State) : (s.setCurlen n).cmd = s.cmd := rfl
@[simp] theorem State.setCurlen_host (n : BitVec 7) (s : State) : (s.setCurlen n).host = s.host := rfl
@[simp] theorem State.setCurlen_cp (n : BitVec 7) (s : State) : (s.setCurlen n).cp = s.cp := rfl

@[simp] theorem State.emit_h (bytes : List Byte) (s : State) : (s.emit bytes).h = s.h := rfl
@[simp] theorem State.emit_buf (bytes : List Byte) (s : State) : (s.emit bytes).buf = s.buf := rfl
@[simp] theorem State.emit_curlen (bytes : List Byte) (s : State) : (s.emit bytes).curlen = s.curlen := rfl
@[simp] theorem State.emit_length (bytes : List Byte) (s : State) : (s.emit bytes).length = s.length := rfl
@[simp] theorem State.emit_phase (bytes : List Byte) (s : State) : (s.emit bytes).phase = s.phase := rfl
@[simp] theorem State.emit_fault (bytes : List Byte) (s : State) : (s.emit bytes).fault = s.fault := rfl
@[simp] theorem State.emit_fcode (bytes : List Byte) (s : State) : (s.emit bytes).fcode = s.fcode := rfl
@[simp] theorem State.emit_din (bytes : List Byte) (s : State) : (s.emit bytes).din = s.din := rfl
@[simp] theorem State.emit_dout (bytes : List Byte) (s : State) : (s.emit bytes).dout = s.dout ++ bytes := rfl
@[simp] theorem State.emit_cmd (bytes : List Byte) (s : State) : (s.emit bytes).cmd = s.cmd := rfl
@[simp] theorem State.emit_host (bytes : List Byte) (s : State) : (s.emit bytes).host = s.host := rfl
@[simp] theorem State.emit_cp (bytes : List Byte) (s : State) : (s.emit bytes).cp = s.cp := rfl

@[simp] theorem State.freshInstance_h (s : State) : (s.freshInstance).h = RunningState.initial := rfl
@[simp] theorem State.freshInstance_buf (s : State) : (s.freshInstance).buf = [] := rfl
@[simp] theorem State.freshInstance_curlen (s : State) : (s.freshInstance).curlen = 0 := rfl
@[simp] theorem State.freshInstance_length (s : State) : (s.freshInstance).length = 0 := rfl
@[simp] theorem State.freshInstance_phase (s : State) : (s.freshInstance).phase = .absorb := rfl
@[simp] theorem State.freshInstance_fault (s : State) : (s.freshInstance).fault = s.fault := rfl
@[simp] theorem State.freshInstance_fcode (s : State) : (s.freshInstance).fcode = s.fcode := rfl
@[simp] theorem State.freshInstance_din (s : State) : (s.freshInstance).din = s.din := rfl
@[simp] theorem State.freshInstance_dout (s : State) : (s.freshInstance).dout = s.dout := rfl
@[simp] theorem State.freshInstance_cmd (s : State) : (s.freshInstance).cmd = s.cmd := rfl
@[simp] theorem State.freshInstance_host (s : State) : (s.freshInstance).host = s.host := rfl
@[simp] theorem State.freshInstance_cp (s : State) : (s.freshInstance).cp = s.cp := rfl

@[simp] theorem State.raise_h (code : FaultCode) (s : State) : (s.raise code).h = s.h := rfl
@[simp] theorem State.raise_buf (code : FaultCode) (s : State) : (s.raise code).buf = s.buf := rfl
@[simp] theorem State.raise_curlen (code : FaultCode) (s : State) : (s.raise code).curlen = s.curlen := rfl
@[simp] theorem State.raise_length (code : FaultCode) (s : State) : (s.raise code).length = s.length := rfl
@[simp] theorem State.raise_phase (code : FaultCode) (s : State) : (s.raise code).phase = s.phase := rfl
@[simp] theorem State.raise_fault (code : FaultCode) (s : State) : (s.raise code).fault = true := rfl
@[simp] theorem State.raise_fcode (code : FaultCode) (s : State) : (s.raise code).fcode = code := rfl
@[simp] theorem State.raise_din (code : FaultCode) (s : State) : (s.raise code).din = s.din := rfl
@[simp] theorem State.raise_dout (code : FaultCode) (s : State) : (s.raise code).dout = s.dout := rfl
@[simp] theorem State.raise_cmd (code : FaultCode) (s : State) : (s.raise code).cmd = s.cmd := rfl
@[simp] theorem State.raise_host (code : FaultCode) (s : State) : (s.raise code).host = s.host := rfl
@[simp] theorem State.raise_cp (code : FaultCode) (s : State) : (s.raise code).cp = s.cp := rfl

@[simp] theorem State.resetEngine_h (s : State) : (s.resetEngine).h = RunningState.initial := rfl
@[simp] theorem State.resetEngine_buf (s : State) : (s.resetEngine).buf = [] := rfl
@[simp] theorem State.resetEngine_curlen (s : State) : (s.resetEngine).curlen = 0 := rfl
@[simp] theorem State.resetEngine_length (s : State) : (s.resetEngine).length = 0 := rfl
@[simp] theorem State.resetEngine_phase (s : State) : (s.resetEngine).phase = .absorb := rfl
@[simp] theorem State.resetEngine_fault (s : State) : (s.resetEngine).fault = false := rfl
@[simp] theorem State.resetEngine_fcode (s : State) : (s.resetEngine).fcode = .none := rfl
@[simp] theorem State.resetEngine_din (s : State) : (s.resetEngine).din = [] := rfl
@[simp] theorem State.resetEngine_dout (s : State) : (s.resetEngine).dout = [] := rfl
@[simp] theorem State.resetEngine_cmd (s : State) : (s.resetEngine).cmd = none := rfl
@[simp] theorem State.resetEngine_host (s : State) : (s.resetEngine).host = s.host := rfl
@[simp] theorem State.resetEngine_cp (s : State) : (s.resetEngine).cp = 0 := rfl

@[simp] theorem State.takeCommand_h (s : State) : (s.takeCommand).h = s.h := rfl
@[simp] theorem State.takeCommand_buf (s : State) : (s.takeCommand).buf = s.buf := rfl
@[simp] theorem State.takeCommand_curlen (s : State) : (s.takeCommand).curlen = s.curlen := rfl
@[simp] theorem State.takeCommand_length (s : State) : (s.takeCommand).length = s.length := rfl
@[simp] theorem State.takeCommand_phase (s : State) : (s.takeCommand).phase = s.phase := rfl
@[simp] theorem State.takeCommand_fault (s : State) : (s.takeCommand).fault = s.fault := rfl
@[simp] theorem State.takeCommand_fcode (s : State) : (s.takeCommand).fcode = s.fcode := rfl
@[simp] theorem State.takeCommand_din (s : State) : (s.takeCommand).din = s.din := rfl
@[simp] theorem State.takeCommand_dout (s : State) : (s.takeCommand).dout = s.dout := rfl
@[simp] theorem State.takeCommand_cmd (s : State) : (s.takeCommand).cmd = none := rfl
@[simp] theorem State.takeCommand_host (s : State) : (s.takeCommand).host = s.host := rfl
@[simp] theorem State.takeCommand_cp (s : State) : (s.takeCommand).cp = s.cp + 1 := rfl

@[simp] theorem State.presentWord_h (w : Word) (s : State) : (s.presentWord w).h = s.h := by simp only [State.presentWord]
@[simp] theorem State.presentWord_buf (w : Word) (s : State) : (s.presentWord w).buf = s.buf := by simp only [State.presentWord]
@[simp] theorem State.presentWord_curlen (w : Word) (s : State) : (s.presentWord w).curlen = s.curlen := by simp only [State.presentWord]
@[simp] theorem State.presentWord_length (w : Word) (s : State) : (s.presentWord w).length = s.length := by simp only [State.presentWord]
@[simp] theorem State.presentWord_phase (w : Word) (s : State) : (s.presentWord w).phase = s.phase := by simp only [State.presentWord]
@[simp] theorem State.presentWord_fault (w : Word) (s : State) : (s.presentWord w).fault = s.fault := by simp only [State.presentWord]
@[simp] theorem State.presentWord_fcode (w : Word) (s : State) : (s.presentWord w).fcode = s.fcode := by simp only [State.presentWord]
@[simp] theorem State.presentWord_din (w : Word) (s : State) : (s.presentWord w).din = List.replicate (payloadLength w) 0x00 ++ s.din := by simp only [State.presentWord]
@[simp] theorem State.presentWord_dout (w : Word) (s : State) : (s.presentWord w).dout = s.dout := by simp only [State.presentWord]
@[simp] theorem State.presentWord_cmd (w : Word) (s : State) : (s.presentWord w).cmd = some w := by simp only [State.presentWord]
@[simp] theorem State.presentWord_host (w : Word) (s : State) : (s.presentWord w).host = s.host := by simp only [State.presentWord]
@[simp] theorem State.presentWord_cp (w : Word) (s : State) : (s.presentWord w).cp = s.cp := by simp only [State.presentWord]

/-- A reset engine is the state after reset, but for what the host does next. -/
theorem State.resetEngine_eq (s : State) : s.resetEngine = { State.reset with host := s.host } := rfl

end Sys2Proof.Machine
end

