-- ==== Sys2Proof/Laws/Accumulator.lean ====
section
/-! SUPPORT. Laws/Accumulator.lean: what the operations of the Stream Accumulator do, said once for each. -/

namespace Sys2Proof.Machine

/-- Bytes that fit are appended to `BUF` and counted. -/
theorem State.appendBuf_of_le {s : State} {vs : List Byte} (h : s.curlen.toNat + vs.length ≤ 64) :
    s.appendBuf vs =
      .ok { s with buf := Memory.writeAll s.curlen.toNat vs s.buf, curlen := s.curlen + BitVec.ofNat 7 vs.length } := by
  simp [State.appendBuf, Memory.store_of_le s.buf h]

/-- Bytes that do not fit stop the machine: no index above 63 exists. -/
theorem State.appendBuf_of_gt {s : State} {vs : List Byte} (h : 64 < s.curlen.toNat + vs.length) :
    s.appendBuf vs = .error .bufIndex := by
  simp [State.appendBuf, Memory.store_of_gt s.buf h]

/-- A count that stays in range is counted without wrapping. -/
theorem curlen_add_toNat {c : BitVec 7} {n : Nat} (h : c.toNat + n ≤ 64) : (c + BitVec.ofNat 7 n).toNat = c.toNat + n := by
  simp only [BitVec.toNat_add, BitVec.toNat_ofNat]
  omega

theorem State.compressBuf_of_readList {s : State} {block : List Byte} (h : Memory.readList 64 0 s.buf = some block) :
    s.compressBuf = .ok (s.compressBlock block) := by
  simp [State.compressBuf, Config.blockSize, h]

/-- Everything `COMPRESS(BUF)` can do. -/
theorem State.compressBuf_eq_ok {s t : State} :
    s.compressBuf = .ok t ↔ ∃ block, Memory.readList 64 0 s.buf = some block ∧ t = s.compressBlock block := by
  unfold State.compressBuf Config.blockSize
  split <;> simp [*, eq_comm]

/-- The buffered path with fewer bytes than fit: they are kept for the next call. -/
theorem bufferedPath_of_lt {s : State} {data : List Byte} (h : s.curlen.toNat + data.length < 64) :
    bufferedPath data s =
      .ok { s with buf := Memory.writeAll s.curlen.toNat data s.buf, curlen := s.curlen + BitVec.ofNat 7 data.length } := by
  have hk : data.take (bufferedCount data.length s) = data :=
    List.take_of_length_le (by simp only [bufferedCount]; omega)
  have hne : (s.curlen + BitVec.ofNat 7 data.length == 64) = false := by
    refine beq_eq_false_iff_ne.2 fun e => ?_
    have := congrArg BitVec.toNat e
    rw [curlen_add_toNat (by omega)] at this
    simp at this; omega
  unfold bufferedPath
  rw [hk, State.appendBuf_of_le (Nat.le_of_lt h)]
  simp only [flushIfFull, State.bufferFull, hne, Bool.false_eq_true, if_false]

/-- The buffered path with at least as many bytes as fit: the buffer fills, is compressed and starts anew. -/
theorem bufferedPath_of_ge {s : State} {data live : List Byte} (hc : s.curlen.toNat ≤ 64)
    (h : 64 ≤ s.curlen.toNat + data.length) (hl : Memory.readList s.curlen.toNat 0 s.buf = some live) :
    bufferedPath data s =
      .ok { s with
            h := compress s.h (live ++ data.take (64 - s.curlen.toNat))
            buf := Memory.writeAll s.curlen.toNat (data.take (64 - s.curlen.toNat)) s.buf
            length := s.length + 512
            curlen := 0 } := by
  have hk : bufferedCount data.length s = 64 - s.curlen.toNat := by simp only [bufferedCount]; omega
  have hlen : (data.take (64 - s.curlen.toNat)).length = 64 - s.curlen.toNat := by simp; omega
  have hfull : s.curlen + BitVec.ofNat 7 (data.take (64 - s.curlen.toNat)).length = 64 := by
    apply BitVec.eq_of_toNat_eq
    rw [curlen_add_toNat (by omega), hlen]
    simp; omega
  have hread := Memory.readList_writeAll_append (data.take (64 - s.curlen.toNat)) hl (n := 64) (by omega)
  unfold bufferedPath
  rw [hk, State.appendBuf_of_le (by omega)]
  simp only [flushIfFull, State.bufferFull, hfull, beq_self_eq_true, if_true]
  rw [State.compressBuf_of_readList (by exact hread)]
  rfl

/-- R67 to R69 in closed form: what the loop of `INGEST` does with its input, from any state with a legal `CURLEN` whose
live bytes are written: `H`, `CURLEN`, `LENGTH` and the live bytes as R72 says, every byte of `BUF` the two paths do not
write as before, the canonical form kept, every other field as before. -/
theorem ingestLoop_spec {fuel : Nat} {data : List Byte} {s : State} {live : List Byte} (hf : data.length ≤ fuel)
    (hc : s.curlen.toNat ≤ 63) (hl : Memory.readList s.curlen.toNat 0 s.buf = some live) :
    ∃ m, ingestLoop fuel data s =
        .ok { s with
              h := compressBlocks ((s.curlen.toNat + data.length) / 64) s.h (live ++ data)
              curlen := BitVec.ofNat 7 ((s.curlen.toNat + data.length) % 64)
              length := s.length + BitVec.ofNat 64 (512 * ((s.curlen.toNat + data.length) / 64))
              buf := m } ∧
      Memory.readList ((s.curlen.toNat + data.length) % 64) 0 m =
        some ((live ++ data).drop (64 * ((s.curlen.toNat + data.length) / 64))) ∧
      (∀ i, ¬ ingestWrites s.curlen.toNat data.length i → Memory.read i m = Memory.read i s.buf) ∧
      (Memory.wf s.buf = true → Memory.wf m = true) := by
  induction fuel generalizing data s live with
  | zero =>
    obtain rfl : data = [] := List.length_eq_zero_iff.1 (by omega)
    refine ⟨s.buf, ?_, ?_, fun _ _ => rfl, id⟩
    · have h0 : s.curlen.toNat / 64 = 0 := by omega
      have h1 : s.curlen.toNat % 64 = s.curlen.toNat := by omega
      simp [ingestLoop, h0, h1]
    · have h0 : s.curlen.toNat / 64 = 0 := by omega
      have h1 : s.curlen.toNat % 64 = s.curlen.toNat := by omega
      simp [h0, h1, hl]
  | succ fuel ih =>
    cases hd : data with
    | nil =>
      refine ⟨s.buf, ?_, ?_, fun _ _ => rfl, id⟩
      · have h0 : s.curlen.toNat / 64 = 0 := by omega
        have h1 : s.curlen.toNat % 64 = s.curlen.toNat := by omega
        simp [ingestLoop, h0, h1]
      · have h0 : s.curlen.toNat / 64 = 0 := by omega
        have h1 : s.curlen.toNat % 64 = s.curlen.toNat := by omega
        simp [h0, h1, hl]
    | cons b bs =>
      have hlive := Memory.length_of_readList hl
      rw [ingestLoop, ← hd]
      have hpos : 0 < data.length := by simp [hd]
      by_cases hdir : s.directPathReady data.length = true
      · -- the direct path
        simp only [State.directPathReady, Bool.and_eq_true, beq_iff_eq, decide_eq_true_eq] at hdir
        obtain ⟨hc0, hn⟩ := hdir
        have hc0' : s.curlen.toNat = 0 := by simp [hc0]
        obtain rfl : live = [] := List.length_eq_zero_iff.1 (by omega)
        rw [if_pos (by simp [State.directPathReady, hc0, hn])]
        obtain ⟨m, h1, h2, h3, h4⟩ :=
          ih (s := directPath (data.take 64) s) (data := data.drop 64) (live := [])
            (by simp; omega) (by simpa [directPath] using hc) (by simpa [directPath] using hl)
        refine ⟨m, ?_, ?_, ?_, ?_⟩
        · rw [h1]
          obtain ⟨q, hq⟩ : ∃ q, data.length / 64 = q + 1 := ⟨data.length / 64 - 1, by omega⟩
          have hq' : (data.length - 64) / 64 = q := by omega
          have hr : (data.length - 64) % 64 = data.length % 64 := by omega
          simp [directPath, hc0', hq, hq', hr, compressBlocks_succ, State.compressBlock, State.addLength, add64,
            BitVec.add_assoc]
          rw [show 512 * (q + 1) = 512 + 512 * q by ring, BitVec.ofNat_add]
        · simp only [directPath, State.addLength_curlen, State.compressBlock_curlen, hc0', List.length_drop,
            List.nil_append, Nat.zero_add, List.drop_drop] at h2 ⊢
          rw [show data.length % 64 = (data.length - 64) % 64 by omega, h2]
          congr 2; omega
        · intro i hi
          refine (h3 i fun hw => hi ?_).trans rfl
          simp only [directPath, State.addLength_curlen, State.compressBlock_curlen, hc0', List.length_drop,
            ingestWrites] at hw ⊢
          omega
        · exact h4
      · rw [if_neg hdir]
        simp only [State.directPathReady, Bool.and_eq_true, beq_iff_eq, decide_eq_true_eq] at hdir
        have hdir' : 0 < s.curlen.toNat ∨ data.length < 64 := by
          by_cases h0 : s.curlen = 0
          · exact .inr (Nat.not_le.1 fun h => hdir ⟨h0, h⟩)
          · left
            refine Nat.pos_of_ne_zero fun h => h0 (BitVec.eq_of_toNat_eq (by simpa using h))
        by_cases hfit : s.curlen.toNat + data.length < 64
        · -- the bytes fit
          rw [bufferedPath_of_lt hfit]
          have hk : bufferedCount data.length s = data.length := by simp only [bufferedCount]; omega
          have h0 : (s.curlen.toNat + data.length) / 64 = 0 := by omega
          have h1 : (s.curlen.toNat + data.length) % 64 = s.curlen.toNat + data.length := by omega
          have hcur : s.curlen + BitVec.ofNat 7 data.length = BitVec.ofNat 7 (s.curlen.toNat + data.length) := by
            rw [BitVec.ofNat_add]; simp
          refine ⟨Memory.writeAll s.curlen.toNat data s.buf, ?_, ?_, ?_, ?_⟩
          · cases fuel <;> simp [hk, ingestLoop, h0, h1, hcur]
          · rw [h0, h1]
            simpa using Memory.readList_writeAll_append data hl rfl
          · intro i hi
            rw [Memory.read_writeAll, if_neg]
            simp only [ingestWrites] at hi; omega
          · exact fun hw => Memory.wf_writeAll data hw (by omega)
        · -- the buffer fills
          have hfull : 64 ≤ s.curlen.toNat + data.length := by omega
          rw [bufferedPath_of_ge (by omega) hfull hl]
          have hk : bufferedCount data.length s = 64 - s.curlen.toNat := by simp only [bufferedCount]; omega
          simp only [hk]
          obtain ⟨m, h1, h2, h3, h4⟩ :=
            ih (s := { s with
                h := compress s.h (live ++ data.take (64 - s.curlen.toNat))
                buf := Memory.writeAll s.curlen.toNat (data.take (64 - s.curlen.toNat)) s.buf
                length := s.length + 512
                curlen := 0 }) (data := data.drop (64 - s.curlen.toNat)) (live := [])
              (by simp; omega) (by simp) (by simp)
          have htake : (live ++ data).take 64 = live ++ data.take (64 - s.curlen.toNat) := by
            rw [List.take_append, hlive, List.take_of_length_le (by omega)]
          have hdrop : (live ++ data).drop 64 = data.drop (64 - s.curlen.toNat) := by
            rw [List.drop_append, hlive, List.drop_eq_nil_of_le (by omega), List.nil_append]
          have hlen : (data.drop (64 - s.curlen.toNat)).length = s.curlen.toNat + data.length - 64 := by simp; omega
          obtain ⟨q, hq⟩ : ∃ q, (s.curlen.toNat + data.length) / 64 = q + 1 :=
            ⟨(s.curlen.toNat + data.length) / 64 - 1, by omega⟩
          have hq' : (s.curlen.toNat + data.length - 64) / 64 = q := by omega
          have hr : (s.curlen.toNat + data.length - 64) % 64 = (s.curlen.toNat + data.length) % 64 := by omega
          have hz : BitVec.toNat (0 : BitVec 7) = 0 := rfl
          simp only [hz, Nat.zero_add, hlen, List.nil_append] at h1 h2 h3 h4
          refine ⟨m, ?_, ?_, ?_, ?_⟩
          · rw [h1]
            simp only [hq, hq', hr, compressBlocks_succ, htake, hdrop, BitVec.add_assoc]
            rw [show 512 * (q + 1) = 512 + 512 * q by ring, BitVec.ofNat_add]
            rfl
          · rw [hr, hq'] at h2
            rw [h2, ← hdrop, List.drop_drop, hq]
            congr 2; omega
          · intro i hi
            rw [h3 i ?_, Memory.read_writeAll, if_neg]
            · simp only [ingestWrites, List.length_take] at hi ⊢; omega
            · simp only [ingestWrites] at hi ⊢; omega
          · exact fun hw => h4 (Memory.wf_writeAll _ hw (by simp; omega))

end Sys2Proof.Machine
end

