-- ==== Sys2Proof/Laws/Compress.lean ====
section
/-! SUPPORT. Laws/Compress.lean: the shape of the message schedule and of the rounds, as lists. -/

namespace Sys2Proof.Machine

theorem length_loadWords {n : Nat} {b : List Byte} (h : b.length = 4 * n) : (loadWords b).length = n := by
  induction n generalizing b with
  | zero => obtain rfl := List.length_eq_zero_iff.1 h; rfl
  | succ n ih =>
    match b, h with
    | _ :: _ :: _ :: _ :: r, h => simp [loadWords, ih (b := r) (by simp at h; omega)]

/-- R57 extends the schedule and changes no word already there. -/
theorem expandSchedule_prefix (n : Nat) (w : List Word) : ∃ x, expandSchedule n w = w ++ x ∧ x.length = n := by
  induction n generalizing w with
  | zero => exact ⟨[], by simp [expandSchedule]⟩
  | succ n ih =>
    obtain ⟨x, hx, hl⟩ := ih (w ++ [nextScheduleWord w])
    exact ⟨nextScheduleWord w :: x, by simp [expandSchedule, hx], by simp [hl]⟩

theorem length_schedule {block : List Byte} (h : block.length = 64) : (schedule block).length = 80 := by
  obtain ⟨x, hx, hl⟩ := expandSchedule_prefix 64 (loadWords block)
  rw [schedule, hx, List.length_append, length_loadWords (n := 16) h, hl]

/-- The last of several rounds, on what the earlier ones leave. -/
theorem compressRounds_snoc (i : Nat) (ws : List Word) (w : Word) (v : Working) :
    compressRounds i (ws ++ [w]) v = compressRound (i + ws.length) w (compressRounds i ws v) := by
  induction ws generalizing i v with
  | nil => rfl
  | cons a ws ih => simp [compressRounds, ih]; congr 1; omega

end Sys2Proof.Machine
end

