-- ==== Sys2Proof/Laws/Decode.lean ====
section
/-! SUPPORT. Laws/Decode.lean: everything the decoder can answer. -/

namespace Sys2Proof

theorem decodeBare_eq_ok {w : Word} {i j : Instr} : decodeBare w i = .ok j ↔ lenField w = 0 ∧ j = i := by
  unfold decodeBare
  by_cases hl : lenField w = 0
  · rw [if_pos hl]; simp [hl, eq_comm]
  · rw [if_neg hl]; simp only [reduceCtorEq, hl, false_and]

/-- Everything `decode` can answer when a word is legal (R51). -/
theorem decode_eq_ok {w : Word} {i : Instr} :
    decode w = .ok i ↔
      zeroField w = 0 ∧
        ((opcField w = 0x02 ∧ i = .ingest (lenField w).toNat) ∨
          (lenField w = 0 ∧
            ((opcField w = 0x01 ∧ i = .init) ∨ (opcField w = 0x03 ∧ i = .digest) ∨
              (opcField w = 0x04 ∧ i = .digestHex) ∨ (opcField w = 0x05 ∧ i = .digestHexUc)))) := by
  unfold decode
  by_cases hz : zeroField w = 0
  · rw [if_neg (not_not.2 hz)]
    simp only [hz, true_and]
    have ne : ∀ {a b : BitVec 8}, opcField w = a → a ≠ b → ¬ opcField w = b := fun h hab h' => hab (h ▸ h')
    by_cases h2 : opcField w = 0x02
    · rw [if_pos h2]
      simp only [Except.ok.injEq, h2, true_and]
      exact ⟨fun h => .inl h.symm, fun h => h.elim Eq.symm fun h => by simp at h⟩
    rw [if_neg h2]
    by_cases h1 : opcField w = 0x01
    · rw [if_pos h1, decodeBare_eq_ok]; simp [h1]
    rw [if_neg h1]
    by_cases h3 : opcField w = 0x03
    · rw [if_pos h3, decodeBare_eq_ok]; simp [h3]
    rw [if_neg h3]
    by_cases h4 : opcField w = 0x04
    · rw [if_pos h4, decodeBare_eq_ok]; simp [h4]
    rw [if_neg h4]
    by_cases h5 : opcField w = 0x05
    · rw [if_pos h5, decodeBare_eq_ok]; simp [h5]
    rw [if_neg h5]
    simp only [h1, h2, h3, h4, h5, false_and, or_false, and_false, reduceCtorEq]
  · rw [if_pos hz]
    simp only [reduceCtorEq, hz, false_and]

end Sys2Proof
end

