-- ==== Sys2Proof/Laws/Finalizer.lean ====
section
/-! SUPPORT. Laws/Finalizer.lean: what FINALIZE does, said once for each of its two shapes (R83). -/

namespace Sys2Proof.Machine

/-- Zero bytes from `CURLEN` up to a limit at or above it. -/
theorem zeroFill_of_le {limit : Nat} {s : State} (h : s.curlen.toNat ≤ limit) (hl : limit ≤ 64) :
    zeroFill limit s =
      .ok { s with
            buf := Memory.writeAll s.curlen.toNat (List.replicate (limit - s.curlen.toNat) 0x00) s.buf
            curlen := BitVec.ofNat 7 limit } := by
  have hcur : s.curlen + BitVec.ofNat 7 (limit - s.curlen.toNat) = BitVec.ofNat 7 limit := by
    apply BitVec.eq_of_toNat_eq
    rw [curlen_add_toNat (by omega)]
    simp; omega
  rw [zeroFill, State.appendBuf_of_le (by simp; omega), List.length_replicate, hcur]

/-- The terminator byte, after the tail has been counted into `LENGTH` (R74, R75). -/
theorem appendTerminator_countTail {s : State} (hc : s.curlen.toNat ≤ 63) :
    appendTerminator (countTail s) =
      .ok { s with
            length := s.length + BitVec.ofNat 64 (8 * s.curlen.toNat)
            buf := Memory.writeAll s.curlen.toNat [0x80] s.buf
            curlen := BitVec.ofNat 7 (s.curlen.toNat + 1) } := by
  have hcur : s.curlen + BitVec.ofNat 7 1 = BitVec.ofNat 7 (s.curlen.toNat + 1) := by
    apply BitVec.eq_of_toNat_eq
    rw [curlen_add_toNat (by omega)]
    simp; omega
  rw [appendTerminator, State.appendBuf_of_le (by simp [countTail]; omega)]
  simp [countTail, State.addLength, add64, hcur, Nat.mul_comm]

/-- Steps 4 to 6 (R77 to R79) with at most 56 bytes in the buffer: the block compressed is those bytes, zeros up to 56
and `LENGTH`. -/
theorem finishBlock_spec {s : State} {live : List Byte} (hc : s.curlen.toNat ≤ 56)
    (hl : Memory.readList s.curlen.toNat 0 s.buf = some live) :
    ∃ m, finishBlock s =
        .ok { s with
              h := compress s.h (live ++ List.replicate (56 - s.curlen.toNat) 0x00 ++ store64be s.length)
              curlen := 56
              buf := m } ∧
      Memory.readList 64 0 m = some (live ++ List.replicate (56 - s.curlen.toNat) 0x00 ++ store64be s.length) ∧
      (∀ i, i < s.curlen.toNat → Memory.read i m = Memory.read i s.buf) ∧
      (Memory.wf s.buf = true → Memory.wf m = true) := by
  have r2 := Memory.readList_writeAll_append (List.replicate (56 - s.curlen.toNat) 0x00) hl (n := 56) (by simp; omega)
  have r3 := Memory.readList_writeAll_append (store64be s.length) r2 (n := 64) (by rw [length_store64be])
  refine ⟨_, ?_, r3, fun i hi => ?_, fun hw => ?_⟩
  · rw [finishBlock, zeroFill_of_le hc (by omega)]
    simp only [writeLengthField, bind, Except.bind, pure, Except.pure]
    rw [Memory.store_of_le _ (by rw [length_store64be])]
    simp only []
    rw [State.compressBuf_of_readList (by exact r3)]
    rfl
  · rw [Memory.read_writeAll_of_lt _ _ (by omega), Memory.read_writeAll_of_lt _ _ hi]
  · refine Memory.wf_writeAll _ (Memory.wf_writeAll _ hw ?_) ?_
    · simp; omega
    · rw [length_store64be]

/-- Step 3 (R76) when the count after the terminator is at most 56: nothing happens. -/
theorem spillIfNeeded_of_le {s : State} (h : s.curlen.toNat ≤ 56) : spillIfNeeded s = .ok s := by
  simp [spillIfNeeded, State.mustSpill, Nat.not_lt.2 h]

/-- Step 3 (R76) when it is 57 to 64: the block is filled with zeros and compressed, and `CURLEN` returns to 0. -/
theorem spillIfNeeded_of_gt {s : State} {live : List Byte} (h : 56 < s.curlen.toNat) (h' : s.curlen.toNat ≤ 64)
    (hl : Memory.readList s.curlen.toNat 0 s.buf = some live) :
    spillIfNeeded s =
      .ok { s with
            h := compress s.h (live ++ List.replicate (64 - s.curlen.toNat) 0x00)
            curlen := 0
            buf := Memory.writeAll s.curlen.toNat (List.replicate (64 - s.curlen.toNat) 0x00) s.buf } := by
  have r := Memory.readList_writeAll_append (List.replicate (64 - s.curlen.toNat) 0x00) hl (n := 64) (by simp; omega)
  simp only [spillIfNeeded, State.mustSpill, h, decide_true, if_true]
  rw [zeroFill_of_le h' (by omega)]
  simp only [bind, Except.bind, pure, Except.pure]
  rw [State.compressBuf_of_readList (by exact r)]
  rfl

/-- R83 without a spill: `FINALIZE` with at most 55 bytes buffered compresses the one block of the live bytes, the
terminator, 55 - r zeros and the message bit count. -/
theorem finalizeState_noSpill {s : State} {live : List Byte} (hc : s.curlen.toNat ≤ 55)
    (hl : Memory.readList s.curlen.toNat 0 s.buf = some live) :
    ∃ m, finalizeState s =
        .ok { s with
              h := compress s.h (live ++ [0x80] ++ List.replicate (55 - s.curlen.toNat) 0x00 ++
                store64be (s.length + BitVec.ofNat 64 (8 * s.curlen.toNat)))
              length := s.length + BitVec.ofNat 64 (8 * s.curlen.toNat)
              curlen := 56
              phase := .done
              buf := m } ∧
      Memory.readList 64 0 m = some (live ++ [0x80] ++ List.replicate (55 - s.curlen.toNat) 0x00 ++
        store64be (s.length + BitVec.ofNat 64 (8 * s.curlen.toNat))) ∧
      (∀ i, i < s.curlen.toNat → Memory.read i m = Memory.read i s.buf) ∧
      (Memory.wf s.buf = true → Memory.wf m = true) := by
  have hcm : (s.curlen.toNat + 1) % 128 = s.curlen.toNat + 1 := by omega
  have r1 := Memory.readList_writeAll_append [0x80] hl rfl
  rw [List.length_singleton] at r1
  obtain ⟨m, h1, h2, h3, h4⟩ := finishBlock_spec (s := { s with
      length := s.length + BitVec.ofNat 64 (8 * s.curlen.toNat)
      buf := Memory.writeAll s.curlen.toNat [0x80] s.buf
      curlen := BitVec.ofNat 7 (s.curlen.toNat + 1) }) (live := live ++ [0x80])
    (by simp; omega) (by simpa [hcm] using r1)
  simp only [BitVec.toNat_ofNat, Nat.reducePow, hcm, show 56 - (s.curlen.toNat + 1) = 55 - s.curlen.toNat by omega]
    at h1 h2 h3 h4
  refine ⟨m, ?_, h2, fun i hi => ?_, fun hw => ?_⟩
  · unfold finalizeState
    rw [appendTerminator_countTail (by omega)]
    simp only [bind, Except.bind]
    rw [spillIfNeeded_of_le (by simp; omega)]
    simp only []
    rw [h1]
    rfl
  · rw [h3 i (by omega), Memory.read_writeAll_of_lt _ _ hi]
  · exact h4 (Memory.wf_writeAll _ hw (by simp; omega))

/-- R83 with a spill: `FINALIZE` with 56 to 63 bytes buffered compresses first the live bytes, the terminator and
63 - r zeros, then 56 zeros and the message bit count. -/
theorem finalizeState_spill {s : State} {live : List Byte} (hc : 56 ≤ s.curlen.toNat) (hc' : s.curlen.toNat ≤ 63)
    (hl : Memory.readList s.curlen.toNat 0 s.buf = some live) :
    ∃ m, finalizeState s =
        .ok { s with
              h := compress (compress s.h (live ++ [0x80] ++ List.replicate (63 - s.curlen.toNat) 0x00))
                (List.replicate 56 0x00 ++ store64be (s.length + BitVec.ofNat 64 (8 * s.curlen.toNat)))
              length := s.length + BitVec.ofNat 64 (8 * s.curlen.toNat)
              curlen := 56
              phase := .done
              buf := m } ∧
      Memory.readList 64 0 m =
        some (List.replicate 56 0x00 ++ store64be (s.length + BitVec.ofNat 64 (8 * s.curlen.toNat))) ∧
      (Memory.wf s.buf = true → Memory.wf m = true) := by
  have hcm : (s.curlen.toNat + 1) % 128 = s.curlen.toNat + 1 := by omega
  have r1 := Memory.readList_writeAll_append [0x80] hl rfl
  rw [List.length_singleton] at r1
  have hsp := spillIfNeeded_of_gt (s := { s with
      length := s.length + BitVec.ofNat 64 (8 * s.curlen.toNat)
      buf := Memory.writeAll s.curlen.toNat [0x80] s.buf
      curlen := BitVec.ofNat 7 (s.curlen.toNat + 1) }) (live := live ++ [0x80])
    (by simp; omega) (by simp; omega) (by simpa [hcm] using r1)
  simp only [BitVec.toNat_ofNat, Nat.reducePow, hcm, show 64 - (s.curlen.toNat + 1) = 63 - s.curlen.toNat by omega] at hsp
  obtain ⟨m, h1, h2, -, h4⟩ := finishBlock_spec (s := { s with
      h := compress s.h (live ++ [0x80] ++ List.replicate (63 - s.curlen.toNat) 0x00)
      length := s.length + BitVec.ofNat 64 (8 * s.curlen.toNat)
      curlen := 0
      buf := Memory.writeAll (s.curlen.toNat + 1) (List.replicate (63 - s.curlen.toNat) 0x00)
        (Memory.writeAll s.curlen.toNat [0x80] s.buf) }) (live := []) (by simp) (by simp)
  have hz : BitVec.toNat (0 : BitVec 7) = 0 := rfl
  simp only [hz, Nat.sub_zero, List.nil_append] at h1 h2 h4
  refine ⟨m, ?_, h2, fun hw => ?_⟩
  · unfold finalizeState
    rw [appendTerminator_countTail (by omega)]
    simp only [bind, Except.bind]
    rw [hsp]
    simp only []
    rw [h1]
    rfl
  · exact h4 (Memory.wf_writeAll _ (Memory.wf_writeAll _ hw (by simp; omega)) (by simp; omega))

/-- The number of zeros of R83 completes the last block. -/
theorem length_padMessage (m : List Byte) :
    (padMessage m).length = 64 * (m.length / 64) + (if m.length % 64 ≤ 55 then 64 else 128) := by
  simp only [padMessage, padZeros, List.length_append, List.length_replicate, length_store64be, List.length_singleton]
  split <;> omega

/-- `FINALIZE` on an instance that has absorbed `m`: the digest words of `m`, and the state of R85. -/
theorem finalizeState_of_absorbed {m : List Byte} {s : State} (ha : Absorbed m s) :
    ∃ b, finalizeState s =
        .ok { s with
              h := sha1Words m
              length := BitVec.ofNat 64 (8 * m.length)
              curlen := 56
              phase := .done
              buf := b } ∧
      (Memory.readList 64 0 b).isSome = true ∧ (Memory.wf s.buf = true → Memory.wf b = true) := by
  obtain ⟨-, hh, hc, hL, hl⟩ := ha
  rw [← hc] at hl
  have hlen : s.length + BitVec.ofNat 64 (8 * s.curlen.toNat) = BitVec.ofNat 64 (8 * m.length) := by
    rw [hL, ← BitVec.ofNat_add]; congr 1; omega
  have hmod : m.length % 64 < 64 := Nat.mod_lt _ (by omega)
  have htail := Memory.length_of_readList hl
  by_cases h55 : s.curlen.toNat ≤ 55
  · obtain ⟨b, h1, h2, -, h4⟩ := finalizeState_noSpill h55 hl
    refine ⟨b, ?_, by simp [h2], h4⟩
    rw [h1, hlen, sha1Words, length_padMessage, if_pos (by omega)]
    have hpad : padMessage m = m ++ ([0x80] ++ List.replicate (55 - s.curlen.toNat) 0x00 ++
        store64be (BitVec.ofNat 64 (8 * m.length))) := by
      simp [padMessage, padZeros, ← hc, h55]
    rw [show (64 * (m.length / 64) + 64) / 64 = m.length / 64 + 1 by omega, compressBlocks_add, hpad,
      compressBlocks_append _ (by omega), ← hh, compressBlocks_succ, compressBlocks_zero,
      List.drop_append_of_le_length (by omega), List.take_of_length_le]
    · simp
    · simp [length_store64be]; omega
  · obtain ⟨b, h1, h2, h4⟩ := finalizeState_spill (by omega) (by omega) hl
    refine ⟨b, ?_, by simp [h2], h4⟩
    rw [h1, hlen, sha1Words, length_padMessage, if_neg (by omega)]
    have hpad : padMessage m = m ++ (([0x80] ++ List.replicate (63 - s.curlen.toNat) 0x00) ++
        (List.replicate 56 0x00 ++ store64be (BitVec.ofNat 64 (8 * m.length)))) := by
      have : padZeros m.length = (63 - s.curlen.toNat) + 56 := by
        rw [padZeros, if_neg (by omega)]; omega
      rw [padMessage, this, List.replicate_add]
      simp
    have hfirst : (m.drop (64 * (m.length / 64)) ++ ([0x80] ++ List.replicate (63 - s.curlen.toNat) 0x00)).length = 64 := by
      simp at htail ⊢; omega
    rw [show (64 * (m.length / 64) + 128) / 64 = m.length / 64 + 1 + 1 by omega, Nat.add_assoc, compressBlocks_add, hpad,
      compressBlocks_append _ (by omega), ← hh, compressBlocks_succ, compressBlocks_succ, compressBlocks_zero,
      List.drop_append_of_le_length (by omega), ← List.append_assoc (m.drop _), List.take_left' hfirst,
      List.drop_left' hfirst, List.take_of_length_le (by simp [length_store64be])]
    simp

end Sys2Proof.Machine
end

