-- ==== Sys2Proof/Laws/Exec.lean ====
section
/-! SUPPORT. Laws/Exec.lean: the admission of a command, and everything a command or a step can do, said once. -/

namespace Sys2Proof.Machine

/-! ### Admission -/

theorem unlessFaulted_of_fault {s : State} (body : Host.Outcome State Fault Refusal) (h : s.fault = true) :
    unlessFaulted s body = .next s := by simp [unlessFaulted, h]

theorem unlessFaulted_of_not_fault {s : State} (body : Host.Outcome State Fault Refusal) (h : s.fault = false) :
    unlessFaulted s body = body := by simp [unlessFaulted, h]

theorem admitted_of_fault {s : State} (body : Except Fault State) (h : s.fault = true) : admitted s body = .next s :=
  unlessFaulted_of_fault _ h

theorem admitted_of_done {s : State} (body : Except Fault State) (h : s.fault = false) (hp : s.phase = .done) :
    admitted s body = .next (s.raise .usageViolation) := by simp [admitted, unlessFaulted, h, hp]

theorem admitted_of_absorb {s : State} (body : Except Fault State) (h : s.fault = false) (hp : s.phase = .absorb) :
    admitted s body = outcomeOf body := by simp [admitted, unlessFaulted, h, hp]

@[simp] theorem outcomeOf_ok (s : State) : outcomeOf (.ok s) = .next s := rfl
@[simp] theorem outcomeOf_error (f : Fault) : outcomeOf (.error f) = .fault f := rfl

theorem outcomeOf_eq_next {x : Except Fault State} {t : State} : outcomeOf x = .next t ↔ x = .ok t := by
  cases x <;> simp

/-- Everything an admitted command can do when it has a next state: refused, turned away, or run. -/
theorem admitted_cases {s t : State} {body : Except Fault State} (h : admitted s body = .next t) :
    (s.fault = true ∧ t = s) ∨
    (s.fault = false ∧ s.phase = .done ∧ t = s.raise .usageViolation) ∨
    (s.fault = false ∧ s.phase = .absorb ∧ body = .ok t) := by
  cases hf : s.fault with
  | true => rw [admitted_of_fault _ hf] at h; exact .inl ⟨rfl, (Host.Outcome.next.inj h).symm⟩
  | false =>
    cases hp : s.phase with
    | done => rw [admitted_of_done _ hf hp] at h; exact .inr (.inl ⟨rfl, rfl, (Host.Outcome.next.inj h).symm⟩)
    | absorb => rw [admitted_of_absorb _ hf hp] at h; exact .inr (.inr ⟨rfl, rfl, outcomeOf_eq_next.1 h⟩)

/-! ### The payload -/

theorem State.takePayload_of_le {n : Nat} {s : State} (h : n ≤ s.din.length) :
    s.takePayload n = .ok (s.din.take n, { s with din := s.din.drop n }) := by
  simp [State.takePayload, Nat.not_lt.2 h]

theorem State.takePayload_of_lt {n : Nat} {s : State} (h : s.din.length < n) :
    s.takePayload n = .error .stuckPayloadShort := by
  simp [State.takePayload, h]

theorem ingestBody_of_le {n : Nat} {s : State} (h : n ≤ s.din.length) :
    ingestBody n s = ingestLoop (n + 1) (s.din.take n) { s with din := s.din.drop n } := by
  simp [ingestBody, State.takePayload_of_le h, Nat.min_eq_left h]

theorem ingestBody_of_lt {n : Nat} {s : State} (h : s.din.length < n) : ingestBody n s = .error .stuckPayloadShort := by
  simp [ingestBody, State.takePayload_of_lt h]

theorem State.appendBuf_ne_stuck (vs : List Byte) (s : State) : s.appendBuf vs ≠ .error .stuckPayloadShort := by
  by_cases h : s.curlen.toNat + vs.length ≤ 64
  · simp [State.appendBuf_of_le h]
  · simp [State.appendBuf_of_gt (Nat.not_le.1 h)]

theorem State.compressBuf_ne_stuck (s : State) : s.compressBuf ≠ .error .stuckPayloadShort := by
  unfold State.compressBuf
  split <;> simp

theorem bufferedPath_ne_stuck (data : List Byte) (s : State) : bufferedPath data s ≠ .error .stuckPayloadShort := by
  unfold bufferedPath
  split
  · unfold flushIfFull
    split
    · split
      · simp
      · next f hf => rintro ⟨⟩; exact State.compressBuf_ne_stuck _ hf
    · simp
  · next f hf => rintro ⟨⟩; exact State.appendBuf_ne_stuck _ _ hf

/-- The loop never stops for want of payload: it was taken before (R70 item 9). -/
theorem ingestLoop_ne_stuck (fuel : Nat) (data : List Byte) (s : State) :
    ingestLoop fuel data s ≠ .error .stuckPayloadShort := by
  induction fuel generalizing data s with
  | zero => cases data <;> simp [ingestLoop]
  | succ fuel ih =>
    cases data with
    | nil => simp [ingestLoop]
    | cons b bs =>
      rw [ingestLoop]
      split
      · exact ih _ _
      · split
        · exact ih _ _
        · next f hf => rintro ⟨⟩; exact bufferedPath_ne_stuck _ _ hf

/-! ### Commands -/

/-- The three commands that run FINALIZE, on an instance that may run them: one computation, three renderings. -/
theorem exec_of_finalizing {i : Instr} {render : List Byte → List Byte} {s : State}
    (h : (i = .digest ∧ render = (fun d => d)) ∨ (i = .digestHex ∧ render = hexBytes false) ∨
      (i = .digestHexUc ∧ render = hexBytes true)) (hf : s.fault = false) (hp : s.phase = .absorb) :
    exec i s = outcomeOf (finalizeAndEmit render s) := by
  obtain ⟨rfl, rfl⟩ | ⟨rfl, rfl⟩ | ⟨rfl, rfl⟩ := h <;> exact admitted_of_absorb _ hf hp

/-- Everything a command can do when it has a next state. -/
theorem exec_cases {i : Instr} {s t : State} (h : exec i s = .next t) :
    (s.fault = true ∧ t = s) ∨
    (s.fault = false ∧ s.phase = .done ∧ i ≠ .init ∧ t = s.raise .usageViolation) ∨
    (s.fault = false ∧ i = .init ∧ t = s.freshInstance) ∨
    (s.fault = false ∧ s.phase = .absorb ∧ ∃ len, i = .ingest len ∧ ingestBody len s = .ok t) ∨
    (s.fault = false ∧ s.phase = .absorb ∧ i = .digest ∧ finalizeAndEmit (fun d => d) s = .ok t) ∨
    (s.fault = false ∧ s.phase = .absorb ∧ i = .digestHex ∧ finalizeAndEmit (hexBytes false) s = .ok t) ∨
    (s.fault = false ∧ s.phase = .absorb ∧ i = .digestHexUc ∧ finalizeAndEmit (hexBytes true) s = .ok t) := by
  cases i with
  | init =>
    simp only [exec, execInit] at h
    cases hf : s.fault with
    | true => rw [unlessFaulted_of_fault _ hf] at h; exact .inl ⟨rfl, (Host.Outcome.next.inj h).symm⟩
    | false =>
      rw [unlessFaulted_of_not_fault _ hf] at h
      exact .inr (.inr (.inl ⟨rfl, rfl, (Host.Outcome.next.inj h).symm⟩))
  | ingest len => obtain ⟨hf, ht⟩ | ⟨hf, hp, ht⟩ | ⟨hf, hp, hb⟩ := admitted_cases h <;> simp [*]
  | digest => obtain ⟨hf, ht⟩ | ⟨hf, hp, ht⟩ | ⟨hf, hp, hb⟩ := admitted_cases h <;> simp [*]
  | digestHex => obtain ⟨hf, ht⟩ | ⟨hf, hp, ht⟩ | ⟨hf, hp, hb⟩ := admitted_cases h <;> simp [*]
  | digestHexUc => obtain ⟨hf, ht⟩ | ⟨hf, hp, ht⟩ | ⟨hf, hp, hb⟩ := admitted_cases h <;> simp [*]

/-! ### Steps -/

theorem step_of_cmd {s : State} {w : Word} (h : s.cmd = some w) : step s = hostStepIfStuck s (runCommand w s) := by
  simp [step, portStep, h]

theorem step_of_no_cmd {s : State} (h : s.cmd = none) : step s = hostStep s := by simp [step, portStep, h]

theorem runCommand_of_ok {s : State} {w : Word} {i : Instr} (hf : s.fault = false) (hd : decode w = .ok i) :
    runCommand w s = exec i s.takeCommand := by
  unfold runCommand
  rw [unlessFaulted_of_not_fault _ (by exact hf), hd]

theorem hostStepIfStuck_of_ne {s : State} {o : Host.Outcome State Fault Refusal} (h : o ≠ .fault .stuckPayloadShort) :
    hostStepIfStuck s o = o := by
  cases o with
  | next t => rfl
  | fault f =>
    cases f with
    | stuckPayloadShort => exact absurd rfl h
    | bufIndex => rfl
    | bufUnwritten => rfl
  | refused r => rfl

/-- Everything a word taken from CMD can do when it has a next state. -/
theorem runCommand_cases {w : Word} {s t : State} (h : runCommand w s = .next t) :
    (s.fault = true ∧ t = s.takeCommand) ∨
    (s.fault = false ∧ (∃ e, decode w = .error e) ∧ t = s.takeCommand.raise .illegalCommand) ∨
    (s.fault = false ∧ ∃ i, decode w = .ok i ∧ exec i s.takeCommand = .next t) := by
  unfold runCommand at h
  cases hf : s.fault with
  | true =>
    rw [unlessFaulted_of_fault _ (by simpa using hf)] at h
    exact .inl ⟨rfl, (Host.Outcome.next.inj h).symm⟩
  | false =>
    rw [unlessFaulted_of_not_fault _ (by simpa using hf)] at h
    cases hd : decode w with
    | error e => simp only [hd] at h; exact .inr (.inl ⟨rfl, ⟨e, rfl⟩, (Host.Outcome.next.inj h).symm⟩)
    | ok i => simp only [hd] at h; exact .inr (.inr ⟨rfl, i, rfl, h⟩)

/-- Everything the host can do in one step. -/
theorem hostStep_cases {s t : State} (h : hostStep s = .next t) :
    (s.host = [] ∧ s.cmd = none ∧ t = s) ∨
    (∃ bytes rest, s.host = .supply bytes :: rest ∧ t = { s with din := s.din ++ bytes, host := rest }) ∨
    (∃ rest, s.host = .reset :: rest ∧ t = { s.resetEngine with host := rest }) ∨
    (∃ w rest, s.host = .issue w :: rest ∧ s.cmd = none ∧ t = { s with cmd := some w, host := rest }) := by
  unfold hostStep at h
  split at h
  · next hh => cases hc : s.cmd <;> simp_all
  · next bytes rest hh => exact .inr (.inl ⟨bytes, rest, hh, (Host.Outcome.next.inj h).symm⟩)
  · next rest hh => exact .inr (.inr (.inl ⟨rest, hh, (Host.Outcome.next.inj h).symm⟩))
  · next w rest hh => cases hc : s.cmd <;> simp_all

/-- Everything a step can do when it has a next state: a word on CMD runs, or the host acts (with nothing on CMD, or
while the INGEST there waits for its payload). -/
theorem step_cases {s t : State} (h : step s = .next t) :
    (∃ w, s.cmd = some w ∧ runCommand w s = .next t) ∨
    ((s.cmd = none ∨ ∃ w, s.cmd = some w ∧ runCommand w s = .fault .stuckPayloadShort) ∧ hostStep s = .next t) := by
  unfold step portStep at h
  split at h
  · next w hw =>
    cases hr : runCommand w s with
    | next u => rw [hr] at h; exact .inl ⟨w, hw, by rw [← h]; exact hr⟩
    | fault f =>
      rw [hr] at h
      cases f with
      | stuckPayloadShort => exact .inr ⟨.inr ⟨w, hw, hr⟩, h⟩
      | bufIndex => cases h
      | bufUnwritten => cases h
    | refused r => rw [hr] at h; cases h
  · next hw => exact .inr ⟨.inl hw, h⟩

/-- A waiting `INGEST` has no step of its own (R107). -/
theorem runCommand_of_waiting {s : State} {w : Word} {len : Nat} (hf : s.fault = false) (hp : s.phase = .absorb)
    (hd : decode w = .ok (.ingest len)) (hl : s.din.length < len) : runCommand w s = .fault .stuckPayloadShort := by
  rw [runCommand_of_ok hf hd]
  show admitted s.takeCommand (ingestBody len s.takeCommand) = _
  rw [admitted_of_absorb _ (by exact hf) (by exact hp), ingestBody_of_lt (by exact hl)]
  rfl

/-- Where no command can run, the step is the host's act. -/
theorem step_of_awaitsHost {s : State} (h : s.AwaitsHost) : step s = hostStep s := by
  obtain hc | ⟨hf, hp, w, len, hc, hd, hl⟩ := h
  · exact step_of_no_cmd hc
  · rw [step_of_cmd hc, runCommand_of_waiting hf hp hd hl]
    rfl

/-! ### Sequences of commands -/

@[simp] theorem execAll_nil (s : State) : execAll [] s = .next s := rfl

theorem execAll_cons_of_next {i : Instr} {rest : List Instr} {s t : State} (h : exec i s = .next t) :
    execAll (i :: rest) s = execAll rest t := by
  simp [execAll, h]

/-- A sequence that completes may be followed by another. -/
theorem execAll_append_of_next {is js : List Instr} {s t : State} (h : execAll is s = .next t) :
    execAll (is ++ js) s = execAll js t := by
  induction is generalizing s with
  | nil => cases h; rfl
  | cons i is ih =>
    cases he : exec i s with
    | next u =>
      rw [execAll_cons_of_next he] at h
      rw [List.cons_append, execAll_cons_of_next he, ih h]
    | fault f => simp [execAll, he] at h
    | refused r => simp [execAll, he] at h

end Sys2Proof.Machine
end

