-- ==== Sys2Proof/Laws/Frame.lean ====
section
/-! SUPPORT. Laws/Frame.lean: what each operation leaves alone whenever it has a result, from any state, and that the
fuel of the loop of INGEST does not matter. -/

namespace Sys2Proof.Machine

/-- A chain of computations has a result exactly when each link has one. -/
theorem except_bind_eq_ok {α β : Type} {x : Except Fault α} {f : α → Except Fault β} {b : β} :
    (x >>= f) = .ok b ↔ ∃ a, x = .ok a ∧ f a = .ok b := by
  cases x <;> simp [bind, Except.bind]

theorem State.appendBuf_frame {s t : State} {vs : List Byte} (h : s.appendBuf vs = .ok t) :
    t = { s with buf := t.buf, curlen := t.curlen } := by
  by_cases hle : s.curlen.toNat + vs.length ≤ 64
  · rw [State.appendBuf_of_le hle] at h; cases h; rfl
  · rw [State.appendBuf_of_gt (Nat.not_le.1 hle)] at h; cases h

theorem State.compressBuf_frame {s t : State} (h : s.compressBuf = .ok t) : t = { s with h := t.h } := by
  obtain ⟨block, -, rfl⟩ := State.compressBuf_eq_ok.1 h
  rfl

theorem bufferedPath_frame {data : List Byte} {s t : State} (h : bufferedPath data s = .ok t) :
    t = { s with h := t.h, buf := t.buf, curlen := t.curlen, length := t.length } := by
  unfold bufferedPath at h
  split at h
  · next u hu =>
    have hu' := State.appendBuf_frame hu
    unfold flushIfFull at h
    split at h
    · split at h
      · next v hv =>
        cases h
        have hv' := State.compressBuf_frame hv
        rw [hv', hu']
        rfl
      · cases h
    · cases h; rw [hu']
  · cases h

/-- The loop of INGEST writes `H`, `BUF`, `CURLEN` and `LENGTH` only. -/
theorem ingestLoop_frame {fuel : Nat} {data : List Byte} {s t : State} (h : ingestLoop fuel data s = .ok t) :
    t = { s with h := t.h, buf := t.buf, curlen := t.curlen, length := t.length } := by
  induction fuel generalizing data s with
  | zero =>
    cases data with
    | nil => simp only [ingestLoop, Except.ok.injEq] at h; subst h; rfl
    | cons b bs => cases h
  | succ fuel ih =>
    cases data with
    | nil => simp only [ingestLoop, Except.ok.injEq] at h; subst h; rfl
    | cons b bs =>
      rw [ingestLoop] at h
      split at h
      · rw [ih h]; rfl
      · split at h
        · next u hu =>
          have h1 := bufferedPath_frame hu
          have h2 := ih h
          rw [h2, h1]
        · cases h

/-- The body of INGEST writes those four and takes `len` bytes from `DIN`. -/
theorem ingestBody_frame {len : Nat} {s t : State} (h : ingestBody len s = .ok t) :
    len ≤ s.din.length ∧
      t = { s with h := t.h, buf := t.buf, curlen := t.curlen, length := t.length, din := s.din.drop len } := by
  by_cases hle : len ≤ s.din.length
  · rw [ingestBody_of_le hle] at h
    exact ⟨hle, ingestLoop_frame h⟩
  · rw [ingestBody_of_lt (Nat.not_le.1 hle)] at h; cases h

/-- FINALIZE writes `H`, `BUF`, `CURLEN`, `LENGTH` and `PHASE` only, and `PHASE` to `DONE`. -/
theorem finalizeState_frame {s t : State} (h : finalizeState s = .ok t) :
    t = { s with h := t.h, buf := t.buf, curlen := t.curlen, length := t.length, phase := .done } := by
  unfold finalizeState at h
  obtain ⟨u1, h1, h⟩ := except_bind_eq_ok.1 h
  obtain ⟨u2, h2, h⟩ := except_bind_eq_ok.1 h
  obtain ⟨u3, h3, h⟩ := except_bind_eq_ok.1 h
  have e1 : u1 = { s with buf := u1.buf, curlen := u1.curlen, length := u1.length } := by
    rw [State.appendBuf_frame h1]; rfl
  have e2 : u2 = { u1 with h := u2.h, buf := u2.buf, curlen := u2.curlen } := by
    unfold spillIfNeeded at h2
    split at h2
    · obtain ⟨v, hv, h2⟩ := except_bind_eq_ok.1 h2
      obtain ⟨w, hw, h2⟩ := except_bind_eq_ok.1 h2
      simp only [pure, Except.pure, Except.ok.injEq] at h2
      rw [← h2, State.compressBuf_frame hw, State.appendBuf_frame hv]; rfl
    · cases h2; rfl
  have e3 : u3 = { u2 with h := u3.h, buf := u3.buf, curlen := u3.curlen } := by
    unfold finishBlock at h3
    obtain ⟨v, hv, h3⟩ := except_bind_eq_ok.1 h3
    obtain ⟨w, hw, h3⟩ := except_bind_eq_ok.1 h3
    unfold writeLengthField at hw
    obtain ⟨m, -, hw⟩ := except_bind_eq_ok.1 hw
    simp only [pure, Except.pure, Except.ok.injEq] at hw
    rw [State.compressBuf_frame h3, ← hw, State.appendBuf_frame hv]
  simp only [pure, Except.pure, Except.ok.injEq] at h
  rw [← h, e3, e2, e1]

/-- A finalizing command writes what FINALIZE writes and appends the rendered digest to `DOUT`. -/
theorem finalizeAndEmit_frame {render : List Byte → List Byte} {s t : State} (h : finalizeAndEmit render s = .ok t) :
    t = { s with
          h := t.h, buf := t.buf, curlen := t.curlen, length := t.length, phase := .done
          dout := s.dout ++ render (serializeDigest t.h) } := by
  obtain ⟨u, hu, h⟩ := except_bind_eq_ok.1 h
  have e := finalizeState_frame hu
  simp only [pure, Except.pure, Except.ok.injEq] at h
  rw [← h, e]
  rfl

/-- Fuel beyond the number of bytes does not matter. -/
theorem ingestLoop_fuel {fuel fuel' : Nat} {data : List Byte} {s : State} (hf : data.length ≤ fuel)
    (hf' : data.length ≤ fuel') (hc : s.curlen.toNat ≤ 63) : ingestLoop fuel data s = ingestLoop fuel' data s := by
  induction fuel generalizing fuel' data s with
  | zero =>
    obtain rfl : data = [] := List.length_eq_zero_iff.1 (by omega)
    cases fuel' <;> simp [ingestLoop]
  | succ fuel ih =>
    cases data with
    | nil => cases fuel' <;> simp [ingestLoop]
    | cons b bs =>
      cases fuel' with
      | zero => simp at hf'
      | succ fuel' =>
        simp only [List.length_cons] at hf hf'
        rw [ingestLoop, ingestLoop]
        split
        · exact ih (by simp; omega) (by simp; omega) (by simpa [directPath] using hc)
        · split
          · next u hu =>
            refine ih ?_ ?_ ?_
            · simp [bufferedCount]; omega
            · simp [bufferedCount]; omega
            · by_cases hfit : s.curlen.toNat + (b :: bs).length < 64
              · rw [bufferedPath_of_lt hfit] at hu
                cases hu
                rw [curlen_add_toNat (by omega)]; omega
              · have hk : bufferedCount (b :: bs).length s = 64 - s.curlen.toNat := by simp only [bufferedCount]; omega
                have hlen : ((b :: bs).take (64 - s.curlen.toNat)).length = 64 - s.curlen.toNat := by
                  rw [List.length_take]; omega
                rw [bufferedPath, hk, State.appendBuf_of_le (by omega)] at hu
                simp only [flushIfFull] at hu
                split at hu
                · split at hu
                  · cases hu; simp
                  · cases hu
                · next hne =>
                  exfalso
                  apply hne
                  simp only [State.bufferFull, beq_iff_eq]
                  apply BitVec.eq_of_toNat_eq
                  rw [curlen_add_toNat (by omega), hlen]
                  simp; omega
          · rfl

end Sys2Proof.Machine
end

