-- ==== Sys2Proof/Laws/Hex.lean ====
section
/-! SUPPORT. Laws/Hex.lean: the shape of hexadecimal text. -/

namespace Sys2Proof.Machine

@[simp] theorem toHex_nil (uppercase : Bool) : toHex [] uppercase = [] := rfl

theorem toHex_cons (b : Byte) (bs : List Byte) (uppercase : Bool) :
    toHex (b :: bs) uppercase =
      hexDigit (b.extractLsb' 4 4) uppercase :: hexDigit (b.extractLsb' 0 4) uppercase :: toHex bs uppercase := rfl

theorem hexBytes_cons (uppercase : Bool) (b : Byte) (bs : List Byte) :
    hexBytes uppercase (b :: bs) =
      asciiCode (hexDigit (b.extractLsb' 4 4) uppercase) :: asciiCode (hexDigit (b.extractLsb' 0 4) uppercase) ::
        hexBytes uppercase bs := rfl

theorem length_toHex (digest : List Byte) (uppercase : Bool) : (toHex digest uppercase).length = 2 * digest.length := by
  induction digest with
  | nil => rfl
  | cons b bs ih => rw [toHex_cons]; simp [ih]; omega

theorem length_hexBytes (uppercase : Bool) (digest : List Byte) :
    (hexBytes uppercase digest).length = 2 * digest.length := by
  rw [hexBytes, List.length_map, length_toHex]

end Sys2Proof.Machine
end

