-- ==== Sys2Proof/Laws/PerInstr.lean ====
section
/-! SUPPORT. Laws/PerInstr.lean: one lemma per command about its encoding (30_encoding.md R46, R47). -/

namespace Sys2Proof.Laws.EncodedFields

/-- The three fields of a well-formed command's word: its opcode, a zero `ZERO` field, and its `LEN`. -/
def Statement (i : Instr) : Prop :=
  i.wellFormed = true →
    zeroField (encode i) = 0 ∧
    match i with
    | .init => opcField (encode i) = 0x01 ∧ (lenField (encode i)).toNat = 0
    | .ingest len => opcField (encode i) = 0x02 ∧ (lenField (encode i)).toNat = len
    | .digest => opcField (encode i) = 0x03 ∧ (lenField (encode i)).toNat = 0
    | .digestHex => opcField (encode i) = 0x04 ∧ (lenField (encode i)).toNat = 0
    | .digestHexUc => opcField (encode i) = 0x05 ∧ (lenField (encode i)).toNat = 0

/-- The fields of a word as numbers. -/
theorem opcField_toNat (w : Word) : (opcField w).toNat = w.toNat / 2 ^ 24 := by
  have := w.isLt
  simp only [opcField, BitVec.extractLsb'_toNat, Nat.shiftRight_eq_div_pow]
  omega

theorem zeroField_toNat (w : Word) : (zeroField w).toNat = w.toNat / 2 ^ 16 % 2 ^ 8 := by
  simp only [zeroField, BitVec.extractLsb'_toNat, Nat.shiftRight_eq_div_pow]

theorem lenField_toNat (w : Word) : (lenField w).toNat = w.toNat % 2 ^ 16 := by
  simp only [lenField, BitVec.extractLsb'_toNat, Nat.shiftRight_zero]

theorem encode_ingest_toNat {len : Nat} (h : len ≤ 65535) : (encode (.ingest len)).toNat = 0x02000000 + len := by
  have hb : BitVec.toNat (0x02000000 : Word) = 0x02000000 := rfl
  simp only [encode, BitVec.toNat_add, BitVec.toNat_ofNat, hb]
  omega

theorem init : Statement .init := fun _ => by decide

theorem ingest (len : Nat) : Statement (.ingest len) := fun h => by
  have hl : len ≤ 65535 := of_decide_eq_true h
  have he := encode_ingest_toNat hl
  refine ⟨?_, ?_, ?_⟩
  · apply BitVec.eq_of_toNat_eq; rw [zeroField_toNat, he]; simp; omega
  · apply BitVec.eq_of_toNat_eq; rw [opcField_toNat, he]; simp; omega
  · rw [lenField_toNat, he]; omega

theorem digest : Statement .digest := fun _ => by decide

theorem digestHex : Statement .digestHex := fun _ => by decide

theorem digestHexUc : Statement .digestHexUc := fun _ => by decide

end Sys2Proof.Laws.EncodedFields
end

