-- ==== Sys2Proof/Tests/Slice0.lean ====
section
/-! SUPPORT. Tests/Slice0.lean: tests against the vectors of spec/95_test_vectors.md (its section and row stand in each
comment), and for every obligation with hypotheses a witness that meets them. Words are written out from the encoding of
30_encoding.md, never taken from the model. -/

open Sys2Proof Sys2Proof.Machine

namespace Sys2Proof.Machine

def State.withDin (din : List Byte) (s : State) : State := { s with din := din }
def State.withCmd (w : Word) (s : State) : State := { s with cmd := some w }
def State.withHost (acts : List HostAction) (s : State) : State := { s with host := acts }
def State.faulted (code : FaultCode) (s : State) : State := { s with fault := true, fcode := code }

end Sys2Proof.Machine

namespace Sys2Proof.Tests

/-! ### Helpers -/

/-- `seq(n)` of 95: the byte `i` is `i mod 256`. -/
def seq (n : Nat) : List Byte := (List.range n).map (BitVec.ofNat 8)

/-- An instance that has absorbed fewer than 64 bytes. -/
def buffered (bytes : List Byte) : State :=
  { State.reset with buf := Memory.writeAll 0 bytes [], curlen := BitVec.ofNat 7 bytes.length }

/-- The instance that has absorbed "abc". -/
def abc : State := buffered [0x61, 0x62, 0x63]

/-- A finalized instance. -/
def finalized : State :=
  { State.reset with buf := Memory.writeAll 0 (List.replicate 64 0x00) [], curlen := 56, phase := .done }

/-- Whether an outcome is a next state with a property. -/
def nextSat (p : State → Bool) : Host.Outcome State Fault Refusal → Bool
  | .next t => p t
  | .fault _ => false
  | .refused _ => false

/-- The stop of an outcome. -/
def faultOf : Host.Outcome State Fault Refusal → Option Fault
  | .fault f => some f
  | .next _ => none
  | .refused _ => none

def refusalOf : Host.Outcome State Fault Refusal → Option Refusal
  | .refused r => some r
  | .next _ => none
  | .fault _ => none

/-- The last block FINALIZE makes of "abc", of no bytes, and the second block of `seq(64)`. -/
def abcBlock : List Byte := [0x61, 0x62, 0x63, 0x80] ++ List.replicate 59 0x00 ++ [0x18]
def emptyBlock : List Byte := [0x80] ++ List.replicate 63 0x00
def seq64Block2 : List Byte := [0x80] ++ List.replicate 61 0x00 ++ [0x02, 0x00]

/-! ### WellFormed -/

/-- R48, R53: `LEN` has 16 bits. -/
theorem test_wellFormed_refuses_long_ingest : (Instr.ingest 65536).wellFormed = false := by decide
theorem test_wellFormed_accepts_longest_ingest : (Instr.ingest 65535).wellFormed = true := by decide

/-! ### Decode and encode (R46, R47, 95 section 8): opcode byte, zero byte, length -/

theorem test_decode_init : decode 0b00000001_00000000_0000000000000000 = .ok .init := by decide
theorem test_decode_ingest : decode 0b00000010_00000000_0000000000000011 = .ok (.ingest 3) := by decide
theorem test_decode_ingest_extremes :
    decode 0b00000010_00000000_0000000000000000 = .ok (.ingest 0) ∧
      decode 0b00000010_00000000_1111111111111111 = .ok (.ingest 65535) := by decide
theorem test_decode_digest : decode 0b00000011_00000000_0000000000000000 = .ok .digest := by decide
theorem test_decode_digestHex : decode 0b00000100_00000000_0000000000000000 = .ok .digestHex := by decide
theorem test_decode_digestHexUc : decode 0b00000101_00000000_0000000000000000 = .ok .digestHexUc := by decide

/-- The illegal rows of 95 section 8. -/
theorem test_decode_illegal :
    decode 0x00000000 = .error .opcode ∧ decode 0x06000000 = .error .opcode ∧ decode 0xFF000000 = .error .opcode ∧
      decode 0xFFFFFFFF = .error .zeroField ∧ decode 0x01000001 = .error .lenField ∧
      decode 0x03000014 = .error .lenField ∧ decode 0x02010003 = .error .zeroField ∧
      decode 0x01010000 = .error .zeroField ∧ decode 0x0000000A = .error .opcode := by decide

theorem test_encode :
    encode .init = 0x01000000 ∧ encode (.ingest 3) = 0x02000003 ∧ encode (.ingest 65535) = 0x0200FFFF ∧
      encode .digest = 0x03000000 ∧ encode .digestHex = 0x04000000 ∧ encode .digestHexUc = 0x05000000 := by decide

theorem test_decodeTableWord :
    decodeTableWord 32 0x02000046 = some (.ingest 70) ∧ decodeTableWord 32 0x06000000 = none := by decide

/-! ### Primitives (95 section 2) -/

theorem test_add32 :
    add32 0xFFFFFFFF 0x00000001 = 0 ∧ add32 0x80000000 0x80000000 = 0 ∧ add32 0x67452301 0x42541B35 = 0xA9993E36 ∧
      add32 0xEFCDAB89 0x5738D5E1 = 0x4706816A := by decide
theorem test_rotl32 :
    rotl32 0x80000001 1 = 0x00000003 ∧ rotl32 0x67452301 5 = 0xE8A4602C ∧ rotl32 0xEFCDAB89 30 = 0x7BF36AE2 ∧
      rotl32 0x00000000 30 = 0 ∧ rotl32 0xFFFFFFFF 5 = 0xFFFFFFFF := by decide
theorem test_load_store :
    load32be 0x61 0x62 0x63 0x80 = 0x61626380 ∧ load32be 0xFF 0x00 0x00 0x01 = 0xFF000001 ∧
      store32be 0xA9993E36 = [0xA9, 0x99, 0x3E, 0x36] ∧
      store64be 0x0123456789ABCDEF = [0x01, 0x23, 0x45, 0x67, 0x89, 0xAB, 0xCD, 0xEF] := by decide
theorem test_add64 :
    add64 0xFFFFFFFFFFFFFE00 512 = 0 ∧ add64 0xFFFFFFFFFFFFFE00 504 = 0xFFFFFFFFFFFFFFF8 := by decide

/-- The `F` and `K` table of 95 section 2, at the boundaries of the four groups. -/
theorem test_mix :
    [0, 19, 20, 39, 40, 59, 60, 79].map (fun i => mix i 0xEFCDAB89 0x98BADCFE 0x10325476) =
      [0x98BADCFE, 0x98BADCFE, 0x67452301, 0x67452301, 0x98BADCFE, 0x98BADCFE, 0x67452301, 0x67452301] := by decide
theorem test_roundConstant :
    [0, 19, 20, 39, 40, 59, 60, 79].map roundConstant =
      [0x5A827999, 0x5A827999, 0x6ED9EBA1, 0x6ED9EBA1, 0x8F1BBCDC, 0x8F1BBCDC, 0xCA62C1D6, 0xCA62C1D6] := by decide

/-! ### COMPRESS (95 sections 3 and 4) -/

/-- 95 section 3: the first and the last expanded words of the "abc" block. -/
theorem test_schedule_abc :
    (schedule abcBlock).length = 80 ∧ (schedule abcBlock).getD 15 0 = 0x00000018 ∧
      (schedule abcBlock).getD 16 0 = 0xC2C4C700 ∧ (schedule abcBlock).getD 79 0 = 0x822E0879 := by decide +kernel

/-- 95 section 3: the working variables after rounds 0 and 20. -/
theorem test_rounds_abc :
    compressRounds 0 ((schedule abcBlock).take 1) (startWorking RunningState.initial) =
        ⟨0x0116FC33, 0x67452301, 0x7BF36AE2, 0x98BADCFE, 0x10325476⟩ ∧
      compressRounds 0 ((schedule abcBlock).take 21) (startWorking RunningState.initial) =
        ⟨0x1A37B0CA, 0xFD9E1D7D, 0x77192407, 0x20AA99CA, 0xD3A49608⟩ := by decide +kernel

/-- 95 section 3, K1 and K4. -/
theorem test_compress_initial :
    compress RunningState.initial abcBlock = ⟨0xA9993E36, 0x4706816A, 0xBA3E2571, 0x7850C26C, 0x9CD0D89D⟩ ∧
      compress RunningState.initial emptyBlock = ⟨0xDA39A3EE, 0x5E6B4B0D, 0x3255BFEF, 0x95601890, 0xAFD80709⟩ ∧
      compress RunningState.initial (seq 64) = ⟨0xB9AC757B, 0xBC297925, 0x2E227274, 0x06872F94, 0xCBEA56A1⟩ := by
  decide +kernel

/-- K6 and K7. -/
theorem test_compress_other_states :
    compress ⟨0xFFFFFFFF, 0xFFFFFFFF, 0xFFFFFFFF, 0xFFFFFFFF, 0xFFFFFFFF⟩ (List.replicate 64 0xFF) =
        ⟨0x3F48159B, 0x2DCE51FA, 0x8A1E930A, 0x02083B68, 0xEF70D6E8⟩ ∧
      compress ⟨0xB9AC757B, 0xBC297925, 0x2E227274, 0x06872F94, 0xCBEA56A1⟩ seq64Block2 =
        ⟨0xC6138D51, 0x4FFA2135, 0xBFCE0ED0, 0xB8FAC656, 0x69917EC7⟩ := by decide +kernel

/-! ### Commands -/

/-- X6: `INIT` in phase `DONE`. -/
theorem test_init_done :
    nextSat (fun t => decide (t = { State.reset with cp := 1 })) (step (finalized.withCmd 0x01000000)) = true := by
  decide +kernel

/-- Trace E: "abc" stays in the buffer. -/
theorem test_ingest_abc :
    nextSat (fun t => decide (t = { abc with cp := 1 }))
      (step ((State.reset.withDin [0x61, 0x62, 0x63]).withCmd 0x02000003)) = true := by decide +kernel

/-- Trace A's second command: 60 bytes after 6 buffered ones fill the buffer once and leave 2. Section 11: `LENGTH` wraps
on the direct path. -/
theorem test_ingest_blocks :
    nextSat (fun t => t.h == ⟨0xE02BACBE, 0x12F1F8E7, 0x02864DDC, 0xE8636B74, 0xAA460DE0⟩ && t.curlen == 2 &&
        t.length == 1024 && Memory.readList 2 0 t.buf == some [0x80, 0x81] && Memory.read 2 t.buf == some 0x42)
      (exec (.ingest 60) { buffered ((seq 70).drop 64) with
        h := ⟨0xB9AC757B, 0xBC297925, 0x2E227274, 0x06872F94, 0xCBEA56A1⟩
        length := 512
        din := (seq 130).drop 70 }) = true ∧
      nextSat (fun t => t.length == 0 && t.curlen == 0 && !t.fault)
        (exec (.ingest 64) { State.reset with length := 0xFFFFFFFFFFFFFE00, din := List.replicate 64 0x00 }) = true := by
  decide +kernel

/-- P2: the digest of "abc". -/
theorem test_digest_abc :
    nextSat (fun t => t.dout == [0xA9, 0x99, 0x3E, 0x36, 0x47, 0x06, 0x81, 0x6A, 0xBA, 0x3E, 0x25, 0x71, 0x78, 0x50,
        0xC2, 0x6C, 0x9C, 0xD0, 0xD8, 0x9D] && t.curlen == 56 && t.length == 24 && t.status == 0x01)
      (step (abc.withCmd 0x03000000)) = true := by decide +kernel

/-- Section 6: n = 55, the longest tail without a spill, and n = 56, the shortest with one. -/
theorem test_digest_spill_boundary :
    nextSat (fun t => t.h == ⟨0x8AE2D467, 0x29CFE68F, 0xF927AF5E, 0xEC9C7D1B, 0x66D65AC2⟩ && t.length == 440)
        (exec .digest (buffered (seq 55))) = true ∧
      nextSat (fun t => t.h == ⟨0x636E2EC6, 0x98DAC903, 0x498E648B, 0xD2F3AF64, 0x1D3C88CB⟩ &&
          Memory.readList 8 56 t.buf == some [0, 0, 0, 0, 0, 0, 0x01, 0xC0])
        (exec .digest (buffered (seq 56))) = true := by decide +kernel

/-- P1: the empty message in lowercase. -/
theorem test_digestHex_empty :
    nextSat (fun t => t.dout == [0x64, 0x61, 0x33, 0x39, 0x61, 0x33, 0x65, 0x65, 0x35, 0x65, 0x36, 0x62, 0x34, 0x62,
        0x30, 0x64, 0x33, 0x32, 0x35, 0x35, 0x62, 0x66, 0x65, 0x66, 0x39, 0x35, 0x36, 0x30, 0x31, 0x38, 0x39, 0x30,
        0x61, 0x66, 0x64, 0x38, 0x30, 0x37, 0x30, 0x39])
      (step (State.reset.withCmd 0x04000000)) = true := by decide +kernel

/-- P2's last command: the empty message in uppercase, appended to what was emitted before. -/
theorem test_digestHexUc_empty :
    nextSat (fun t => t.dout == 0xA9 :: [0x44, 0x41, 0x33, 0x39, 0x41, 0x33, 0x45, 0x45, 0x35, 0x45, 0x36, 0x42, 0x34,
        0x42, 0x30, 0x44, 0x33, 0x32, 0x35, 0x35, 0x42, 0x46, 0x45, 0x46, 0x39, 0x35, 0x36, 0x30, 0x31, 0x38, 0x39,
        0x30, 0x41, 0x46, 0x44, 0x38, 0x30, 0x37, 0x30, 0x39])
      (exec .digestHexUc { State.reset with dout := [0xA9] }) = true := by decide +kernel

/-- Section 7: nibble order and leading zeros. -/
theorem test_toHex :
    toHex [0xAB, 0x0A, 0x00, 0xF0] false = ['a', 'b', '0', 'a', '0', '0', 'f', '0'] ∧
      toHex [0xAB, 0x0A, 0x00, 0xF0] true = ['A', 'B', '0', 'A', '0', '0', 'F', '0'] := by decide

/-! ### Faults, refusals, stuck (95 section 9) -/

/-- X1 and X7: an illegal word, in either phase; decoding precedes the phase check. -/
theorem test_illegal_word :
    nextSat (fun t => t.status == 0x06 && t.buf == abc.buf && t.curlen == 3 && t.h == RunningState.initial)
        (step (abc.withCmd 0x06000000)) = true ∧
      nextSat (fun t => t.status == 0x07) (step (finalized.withCmd 0x09000000)) = true := by decide +kernel

/-- X2 to X5: use after finalization. -/
theorem test_usage_violation :
    nextSat (fun t => t.status == 0x0B && t.din == [0x61]) (step ((finalized.withDin [0x61]).withCmd 0x02000001)) = true ∧
      [0x03000000, 0x04000000, 0x05000000].all (fun w =>
        nextSat (fun t => t.status == 0x0B && t.dout == [] && t.h == finalized.h) (step (finalized.withCmd w))) = true := by
  decide +kernel

/-- X8 to X10: a faulted engine refuses every word; only the host's `CP` moves. -/
theorem test_refused :
    nextSat (fun t => decide (t = { (abc.withDin [0x61, 0x62, 0x63]).faulted .illegalCommand with cp := 1 }))
        (step (((abc.withDin [0x61, 0x62, 0x63]).faulted .illegalCommand).withCmd 0x02000003)) = true ∧
      [0x01000000, 0xFFFFFFFF].all (fun w =>
        nextSat (fun t => t.status == 0x0B) (step ((finalized.faulted .usageViolation).withCmd w))) = true := by
  decide +kernel

/-- X11 and X12: a short payload has no step until the host appends the missing byte. -/
theorem test_stuck_payload :
    faultOf (step ((State.reset.withDin [0x61, 0x62]).withCmd 0x02000003)) = some .stuckPayloadShort ∧
      nextSat (fun t => t.din == [0x61, 0x62, 0x63] && t.cmd == some 0x02000003 && t.curlen == 0)
        (step (((State.reset.withDin [0x61, 0x62]).withCmd 0x02000003).withHost [.supply [0x63]])) = true := by
  decide +kernel

/-- X13: RESET is the way out of a fault. -/
theorem test_reset_event :
    nextSat (fun t => decide (t = State.reset))
      (step (((abc.withDin [0x61]).faulted .illegalCommand).withHost [.reset])) = true := by decide +kernel

/-- R116, U14: a second word while one is pending is refused. -/
theorem test_overlapping_command :
    refusalOf (step ((State.reset.withCmd 0x02000001).withHost [.issue 0x01000000])) = some .overlappingCommand := by
  decide +kernel

/-- A placed word is the next command run. -/
theorem test_withFetchWord :
    nextSat (fun t => t.curlen == 3 && Memory.readList 3 0 t.buf == some [0, 0, 0] && t.cp == 1)
      (step (State.reset.withFetchWord 32 0x02000003)) = true := by decide +kernel

/-! ### Assembler (30_encoding.md R53, 44_oneshot.md R97) -/

theorem test_assemble_ingest :
    assembleLine (.ingest (.join (.text ['a', 'b']) (.copies 1 0x63))) =
      some [.supply [0x61, 0x62, 0x63], .issue 0x02000003] := by decide
theorem test_assemble_oneShot :
    assembleLine (.sha1Hex (.hex [])) =
      some [.supply [], .issue 0x01000000, .supply [], .issue 0x02000000, .supply [], .issue 0x04000000] := by decide

/-! ### Witnesses: for each obligation with hypotheses, states and operands that meet them all -/

/-- `Rotl32MovesEveryBit`, at the last bit. -/
theorem witness_Rotl32MovesEveryBit :
    (30 = 1 ∨ 30 = 5 ∨ 30 = 30) ∧ 31 < 32 ∧ (rotl32 0x80000000 30).getLsbD ((31 + 30) % 32) = true := by decide

/-- `Store32BigEndian`, `Store64BigEndian` and `DigestSerializesWordsBigEndian`, at the last byte. -/
theorem witness_byte_indices :
    (store32be 0x9D).getD 3 0 = 0x9D ∧ (store64be 0x18).getD 7 0 = 0x18 ∧ 4 < 5 ∧ 3 < 4 ∧ (serializeDigest ⟨0, 0, 0, 0, 0x9D⟩).getD (4 * 4 + 3) 0 = 0x9D := by
  decide

/-- `ScheduleLoadsBlockWords`, `ScheduleExpansionRecurrence`, `RoundsUpdateWorkingVariables`,
`FeedForwardAddsWorkingVariables`: a block, and the first and last index of each range. -/
theorem witness_block :
    abcBlock.length = 64 ∧ 15 < 16 ∧ (schedule abcBlock).getD 15 0 = load32be 0x00 0x00 0x00 0x18 ∧ 16 ≤ 16 ∧ 79 < 80 := by
  decide +kernel

/-- `MixFunctionTruthTable`, `RoundConstantsOfTheFourGroups`: each clause at both ends of its range. -/
theorem witness_round_groups :
    [0, 19].all (fun i => decide (i < 20)) ∧ [20, 39].all (fun i => decide (20 ≤ i ∧ i < 40)) ∧
      [40, 59].all (fun i => decide (40 ≤ i ∧ i < 60)) ∧ [60, 79].all (fun i => decide (60 ≤ i ∧ i < 80)) ∧
      (mix 0 1 1 0).getLsbD 0 = true ∧ (mix 20 1 1 0).getLsbD 0 = false ∧ (mix 59 1 1 0).getLsbD 0 = true ∧
      (mix 79 1 1 0).getLsbD 0 = false := by decide

/-- `DecodeOfEncodeIsTheCommand`, `EncodeOfDecodeIsTheWord`, `WordsSelectRowsByMaskAndMatch`,
`PlacedWordRunsItsCommand` (on `State.reset`), at the largest `LEN`. -/
theorem witness_longest_ingest :
    (Instr.ingest 65535).wellFormed = true ∧ State.reset.fault = false ∧ decode 0x0200FFFF = .ok (.ingest 65535) ∧
      0x0200FFFF &&& 0xFFFF0000 = (0x02000000 : Word) := by decide

/-- `IllegalWordsExactly` and `IllegalCommandFault`: an illegal word on a non-faulted engine, one for each way. -/
theorem witness_illegal :
    (abc.withCmd 0x06000000).fault = false ∧ (abc.withCmd 0x06000000).cmd = some 0x06000000 ∧
      decode 0x06000000 = .error .opcode ∧ decode 0x00FFFFFF = .error .zeroField ∧ decode 0x00000000 = .error .opcode ∧
      decode 0x05000001 = .error .lenField := by decide

/-- `ResetEventCreatesFreshInstance`, `ResetStateIsTheCreatedInstance`: a RESET of a faulted engine. -/
theorem witness_ResetEvent :
    ((finalized.faulted .usageViolation).withHost [.reset]).cmd = none ∧
      ((finalized.faulted .usageViolation).withHost [.reset]).host = .reset :: [] := by decide

/-- `Inv` with "abc" buffered, faulted or not. -/
theorem witness_Inv_absorbing : Inv abc ∧ Inv (abc.faulted .illegalCommand) := by
  constructor <;> constructor <;> decide

/-- `Inv` of a finalized instance, not faulted and with either fault: with the two above, the five values of
`StatusTakesFiveValues`. -/
theorem witness_Inv_done :
    Inv finalized ∧ Inv (finalized.faulted .illegalCommand) ∧ Inv (finalized.faulted .usageViolation) := by
  refine ⟨?_, ?_, ?_⟩ <;> constructor <;> decide

theorem witness_five_statuses :
    [abc, finalized, abc.faulted .illegalCommand, finalized.faulted .illegalCommand,
      finalized.faulted .usageViolation].map State.status = [0x00, 0x01, 0x06, 0x07, 0x0B] := by decide

/-- `InitCreatesFreshInstance`, `FaultedEngineRefusesEverything`: a faulted engine and one that is not. -/
theorem witness_faulted : finalized.fault = false ∧ (finalized.faulted .usageViolation).fault = true := by decide

/-- `State.AwaitsHost` while an `INGEST` waits with a RESET to come: the statements about RESET in that state. -/
theorem witness_AwaitsHost :
    (((abc.withDin [0x64]).withCmd 0x02000002).withHost [.reset]).AwaitsHost ∧
      (((abc.withDin [0x64]).withCmd 0x02000002).withHost [.reset]).host = .reset :: [] ∧
      ∃ t, step (((abc.withDin [0x64]).withCmd 0x02000002).withHost [.reset]) = .next t :=
  ⟨.inr ⟨rfl, rfl, 0x02000002, 2, rfl, by decide, by decide⟩, rfl, _, rfl⟩

/-- `State.AwaitsHost` with nothing on `CMD`. -/
theorem witness_AwaitsHost_idle : (finalized.withHost [.reset]).AwaitsHost := .inl rfl

/-- `OverlappingWordIsRefused`. -/
theorem witness_overlapping :
    (((abc.withDin [0x64]).withCmd 0x02000002).withHost [.issue 0x01000000]).cmd = some 0x02000002 ∧
      (((abc.withDin [0x64]).withCmd 0x02000002).withHost [.issue 0x01000000]).host = .issue 0x01000000 :: [] ∧
      abc.fault = false ∧ abc.phase = .absorb ∧ decode 0x02000002 = .ok (.ingest 2) ∧ (abc.withDin [0x64]).din.length < 2 := by
  decide

/-- `ConstantsAreTheDigestAndBlockSizes`: a buffer written whole, and one that is not. -/
theorem witness_constants :
    Memory.readList Config.blockSize 0 finalized.buf = some (List.replicate 64 0x00) ∧
      Memory.readList Config.blockSize 0 abc.buf = none ∧ ∃ t, exec .digest abc = .next t :=
  ⟨by decide, by decide, _, rfl⟩

/-- `IngestOfNothingChangesNothing` (X14). -/
theorem witness_IngestOfNothing : abc.fault = false ∧ abc.phase = .absorb := by decide

/-- `IngestDirectPath`, `Add64WrapsModuloTwoToThe64`: exactly one block. -/
theorem witness_IngestDirectPath :
    (State.reset.withDin (seq 64)).fault = false ∧ (State.reset.withDin (seq 64)).phase = .absorb ∧
      (State.reset.withDin (seq 64)).curlen = 0 ∧ 64 ≤ 64 ∧ 64 ≤ (State.reset.withDin (seq 64)).din.length := by decide

/-- `IngestBufferedPath`, a buffer that does not fill: no byte buffered and 63 to take. -/
theorem witness_IngestBufferedPath_kept :
    (State.reset.withDin (seq 63)).fault = false ∧ (State.reset.withDin (seq 63)).phase = .absorb ∧
      (State.reset.withDin (seq 63)).curlen.toNat ≤ 63 ∧ Memory.readList 0 0 (State.reset.withDin (seq 63)).buf = some [] ∧
      1 ≤ 63 ∧ 63 ≤ (State.reset.withDin (seq 63)).din.length ∧
      ((State.reset.withDin (seq 63)).curlen ≠ 0 ∨ 63 < 64) ∧ 63 = min 63 (64 - 0) ∧ 0 + 63 < 64 := by decide

/-- `IngestBufferedPath`, a buffer that fills: 63 bytes buffered and 1 to take. -/
theorem witness_IngestBufferedPath_fills :
    ((buffered (seq 63)).withDin [0x3F]).fault = false ∧ ((buffered (seq 63)).withDin [0x3F]).phase = .absorb ∧
      ((buffered (seq 63)).withDin [0x3F]).curlen.toNat = 63 ∧
      Memory.readList 63 0 ((buffered (seq 63)).withDin [0x3F]).buf = some (seq 63) ∧
      1 ≤ ((buffered (seq 63)).withDin [0x3F]).din.length ∧ ((buffered (seq 63)).withDin [0x3F]).curlen ≠ 0 ∧
      1 = min 1 (64 - 63) ∧ 63 + 1 = 64 := by decide

/-- `IngestCompletesWithItsFrame`, `ChunkingInvariance` (two bytes, then one). -/
theorem witness_IngestCompletes :
    Inv (abc.withDin [0x64, 0x65, 0x66]) ∧ (abc.withDin [0x64, 0x65, 0x66]).fault = false ∧
      (abc.withDin [0x64, 0x65, 0x66]).phase = .absorb ∧ 2 + 1 ≤ (abc.withDin [0x64, 0x65, 0x66]).din.length ∧
      ¬ ingestWrites 3 3 2 ∧ ingestWrites 3 3 5 := by
  refine ⟨by constructor <;> decide, by decide, by decide, by decide, ?_, ?_⟩ <;> simp [ingestWrites]

/-- `IngestExtendsTheAbsorbedMessage`, `FinalizingCommandsEmitTheDigest`, with less than a block absorbed. -/
theorem witness_Absorbed_abc : Absorbed [0x61, 0x62, 0x63] abc ∧ abc.fault = false ∧ 0 ≤ abc.din.length := by
  refine ⟨?_, rfl, Nat.zero_le _⟩
  constructor <;> decide

/-- `Absorbed` with one block compressed: the end of trace D. -/
theorem witness_Absorbed_block :
    Absorbed (seq 64) { State.reset with
      h := ⟨0xB9AC757B, 0xBC297925, 0x2E227274, 0x06872F94, 0xCBEA56A1⟩, length := 512 } := by
  constructor <;> decide +kernel

/-- `ShortPayloadLeavesIngestWaiting`, with nothing more to come and with the missing byte to come. -/
theorem witness_ShortPayload :
    ((State.reset.withDin [0x61, 0x62]).withCmd 0x02000003).fault = false ∧
      ((State.reset.withDin [0x61, 0x62]).withCmd 0x02000003).phase = .absorb ∧
      ((State.reset.withDin [0x61, 0x62]).withCmd 0x02000003).cmd = some 0x02000003 ∧
      decode 0x02000003 = .ok (.ingest 3) ∧ ((State.reset.withDin [0x61, 0x62]).withCmd 0x02000003).din.length < 3 ∧
      ((State.reset.withDin [0x61, 0x62]).withCmd 0x02000003).host = [] ∧
      (((State.reset.withDin [0x61, 0x62]).withCmd 0x02000003).withHost [.supply [0x63]]).host = .supply [0x63] :: [] ∧
      3 ≤ 2 + [(0x63 : Byte)].length := by decide

/-- `FinalizePadsAndCompresses`: 0, 55, 56 and 63 live bytes. -/
theorem witness_FinalizePads :
    [0, 55, 56, 63].all (fun n => decide ((buffered (seq n)).fault = false ∧ (buffered (seq n)).phase = .absorb ∧
      (buffered (seq n)).curlen.toNat = n ∧
      Memory.readList n 0 (buffered (seq n)).buf = some (seq n) ∧ (n ≤ 55 ∨ (56 ≤ n ∧ n ≤ 63)))) = true := by
  decide +kernel

/-- `FinalizedInstanceTakesOnlyInit`. -/
theorem witness_FinalizedInstance :
    abc.fault = false ∧ abc.phase = .absorb ∧ ∃ t, exec .digest abc = .next t := ⟨rfl, rfl, _, rfl⟩

/-- `ToHexRendersNibblesInOrder`, at the last byte. -/
theorem witness_ToHex : (List.replicate 20 (0xA9 : Byte)).length = 20 ∧ 19 < 20 := by decide

/-- `HexTextsDifferInCaseOnly`: a letter and a digit. -/
theorem witness_HexTexts :
    (hexBytes false [0xA9])[0]? = some 0x61 ∧ (hexBytes true [0xA9])[0]? = some 0x41 ∧
      (hexBytes false [0xA9])[1]? = some 0x39 ∧ (hexBytes true [0xA9])[1]? = some 0x39 := by decide

/-- `IngestLongSplitsTheSpan`: a span one byte longer than the longest `INGEST` has a piece before the last. -/
theorem witness_IngestLong (x : List Byte) (h : x.length = 65536) :
    longPieces x.length x = [x.take 65535, x.drop 65535] ∧ 0 + 1 < (longPieces x.length x).length := by
  have h2 : longPieces x.length x = [x.take 65535, x.drop 65535] := by
    rw [h, longPieces, if_neg (by simp [Config.maxLen, h]), longPieces,
      if_pos (by simp [Config.maxLen, h])]
    rfl
  exact ⟨h2, by simp [h2]⟩

/-- `HexCharacterCodes`, at the ends of its clauses. -/
theorem witness_HexCharacterCodes :
    0 < 16 ∧ asciiCode (hexDigit 9 true) = 0x39 ∧ asciiCode (hexDigit 10 true) = 0x41 ∧
      asciiCode (hexDigit 15 false) = 0x66 := by decide

/-- `AssemblerSendsIngest`, `PseudoCommandsExpand`: an operand of every form. -/
theorem witness_SpanOperand :
    (∀ c ∈ ['a'], c.toNat < 128) ∧
      (SpanOperand.join (.text ['a']) (.join (.hex [0x62]) (.copies 2 0x00))).bytes = some [0x61, 0x62, 0x00, 0x00] :=
  ⟨fun c h => by rw [List.mem_singleton] at h; subst h; decide, by decide⟩

/-- `AssemblerSendsIngest`, its refusal. -/
theorem witness_long_operand :
    (SpanOperand.copies 65536 0x00).bytes = some (List.replicate 65536 0x00) ∧
      ¬ (List.replicate 65536 (0x00 : Byte)).length ≤ 65535 := ⟨rfl, by rw [List.length_replicate]; decide⟩

/-- `OneShotDigestDependsOnTheSpanAlone`: a finalized engine, two pieces and an empty one, and one byte left over. -/
theorem witness_OneShot :
    (finalized.withDin [0x61, 0x62, 0x63]).fault = false ∧
      (finalized.withDin [0x61, 0x62, 0x63]).din = [0x61, 0x62] ++ [0x63] ∧
      [[(0x61 : Byte)], [], [0x62]].flatten = [0x61, 0x62] ∧
      (∀ p ∈ [[(0x61 : Byte)], [], [0x62]], p.length ≤ 65535) := by decide

/-- `OneShotDigestDependsOnTheSpanAlone`, a span too long for one `INGEST`, split as `INGEST_LONG` splits it. -/
theorem witness_OneShot_long (x : List Byte) (h : x.length = 65536) :
    (finalized.withDin (x ++ [0x63])).fault = false ∧ (finalized.withDin (x ++ [0x63])).din = x ++ [0x63] ∧
      [x.take 65535, x.drop 65535].flatten = x ∧ ∀ p ∈ [x.take 65535, x.drop 65535], p.length ≤ 65535 := by
  refine ⟨rfl, rfl, by simp, fun p hp => ?_⟩
  obtain rfl | rfl : p = x.take 65535 ∨ p = x.drop 65535 := by simpa using hp
  · exact List.length_take_le _ _
  · rw [List.length_drop, h]; decide

/-- `UsageViolationInPhaseDone`. -/
theorem witness_UsageViolation :
    (finalized.withDin [0x61]).fault = false ∧ (finalized.withDin [0x61]).phase = .done ∧ Instr.ingest 1 ≠ .init := by
  decide

/-- `FaultedEngineRefusesEverything`, its steps: with a word on `CMD`, and with a RESET to come. -/
theorem witness_faulted_steps :
    ((abc.faulted .illegalCommand).withCmd 0x01000000).cmd = some 0x01000000 ∧
      (∃ t, step ((abc.faulted .illegalCommand).withCmd 0x01000000) = .next t) ∧
      ∃ t, step ((abc.faulted .illegalCommand).withHost [.reset]) = .next t := ⟨rfl, ⟨_, rfl⟩, _, rfl⟩

/-- `StepFollowsTheCheckOrder`, a state for each of its five cases, in order. -/
theorem witness_check_order :
    ((abc.faulted .illegalCommand).withCmd 0x01000000).fault = true ∧
      decode 0x06000000 = .error .opcode ∧
      (decode 0x03000000 = .ok .digest ∧ Instr.digest ≠ .init ∧ finalized.phase = .done) ∧
      (decode 0x02000001 = .ok (.ingest 1) ∧ abc.phase = .absorb ∧ abc.din.length < takenCount (.ingest 1)) ∧
      (decode 0x02000000 = .ok (.ingest 0) ∧ ¬ abc.din.length < takenCount (.ingest 0)) := by decide

/-- `StepRunsTheDecodedCommand`, both clauses: an `INGEST` of the one byte there, and of one more. -/
theorem witness_StepRuns :
    ((abc.withDin [0x64]).withCmd 0x02000001).fault = false ∧
      ((abc.withDin [0x64]).withCmd 0x02000001).cmd = some 0x02000001 ∧ decode 0x02000001 = .ok (.ingest 1) ∧
      decode 0x02000002 = .ok (.ingest 2) ∧
      faultOf (exec (.ingest 1) { (abc.withDin [0x64]) with cmd := none, cp := 1 }) = none ∧
      faultOf (exec (.ingest 2) { (abc.withDin [0x64]) with cmd := none, cp := 1 }) = some .stuckPayloadShort := by decide

/-- `HostActsWhenNoCommandIsPending`: nothing to do, a supply, a word. -/
theorem witness_HostActs :
    abc.cmd = none ∧ abc.host = [] ∧ (abc.withHost [.supply [0x64]]).host = .supply [0x64] :: [] ∧
      (abc.withHost [.issue 0x03000000]).host = .issue 0x03000000 :: [] := by decide

/-- `EveryStepKeepsTheInvariant`, `NoUnwrittenByteIsEverRead`: a step that runs a finalizing command. -/
theorem witness_EveryStep : Inv (abc.withCmd 0x03000000) ∧ ∃ t, step (abc.withCmd 0x03000000) = .next t :=
  ⟨by constructor <;> decide, _, rfl⟩

/-- `EveryCommandCompletes`, its second case. -/
theorem witness_waiting_ingest :
    Inv abc ∧ abc.fault = false ∧ abc.phase = .absorb ∧ abc.din.length < takenCount (.ingest 1) :=
  ⟨by constructor <;> decide, rfl, rfl, by decide⟩

/-- `DoutIsAppendOnly`, `OnlyIngestTakesFromDin`, `PhaseFollowsTheLifecycle`: commands and host acts with a next state. -/
theorem witness_next_states :
    (∃ t, exec .digestHex abc = .next t) ∧ (∃ t, exec (.ingest 1) (abc.withDin [0x64]) = .next t) ∧
      (∃ t, step (abc.withCmd 0x03000000) = .next t) ∧ (∀ rest, (abc.withCmd 0x03000000).host ≠ .reset :: rest) ∧
      (abc.withHost [.reset]).cmd = none ∧ ∃ t, step (abc.withHost [.reset]) = .next t :=
  ⟨⟨_, rfl⟩, ⟨_, rfl⟩, ⟨_, rfl⟩, fun _ => by simp [State.withCmd, abc, buffered, State.reset], rfl, _, rfl⟩

/-- `StaleBytesInfluenceNothing`: one stale byte more, and, finalized, another byte anywhere. -/
theorem witness_SameButStale :
    SameButStale abc { abc with buf := Memory.write 63 0x77 abc.buf } ∧
      SameButStale finalized { finalized with buf := Memory.write 0 0x77 finalized.buf } := by
  constructor <;> constructor <;> decide

/-- `BlocksShareNothing`: the first of two blocks steps. -/
theorem witness_Blocks :
    (∃ after, stepBlock 0 [abc.withCmd 0x03000000, abc] = .next after) ∧ 1 ≠ 0 ∧
      [abc.withCmd 0x03000000, abc][0]? = some (abc.withCmd 0x03000000) := ⟨⟨_, rfl⟩, by decide, rfl⟩

end Sys2Proof.Tests
end

