-- ==== Sys2Proof/Proofs/Primitives.lean ====
section
/-! PROOFS. Primitives.lean: the numbers that the primitives of 00_scope.md section 6 compute. -/

namespace Sys2Proof.Machine

/-- R5: `add32` is the sum modulo `2 ^ 32`. -/
@[simp] theorem toNat_add32 (x y : Word) : (add32 x y).toNat = (x.toNat + y.toNat) % 2 ^ 32 := BitVec.toNat_add x y

theorem add32_comm (x y : Word) : add32 x y = add32 y x := BitVec.add_comm x y

theorem add32_assoc (x y z : Word) : add32 (add32 x y) z = add32 x (add32 y z) := BitVec.add_assoc x y z

/-- Appended bit vectors as positional notation: the low `m` bits do not overlap the shifted high ones. -/
theorem toNat_append_eq_mul_add {n m : Nat} (hi : BitVec n) (lo : BitVec m) :
    (hi ++ lo).toNat = hi.toNat * 2 ^ m + lo.toNat := by
  rw [BitVec.toNat_append, ← Nat.shiftLeft_add_eq_or_of_lt lo.isLt, Nat.shiftLeft_eq]

/-- R8 as a number. -/
theorem toNat_load32be (b0 b1 b2 b3 : Byte) :
    (load32be b0 b1 b2 b3).toNat = b0.toNat * 2 ^ 24 + b1.toNat * 2 ^ 16 + b2.toNat * 2 ^ 8 + b3.toNat := by
  simp only [load32be, toNat_append_eq_mul_add]
  omega

/-- R10: byte `j` stands at bits `63 - 8 * j` down to `56 - 8 * j`. -/
theorem store64be_eq_map_range (v : DWord) :
    store64be v = (List.range 8).map fun j => v.extractLsb' (8 * (7 - j)) 8 := rfl

theorem getD_store64be (v : DWord) {j : Nat} (hj : j < 8) :
    (store64be v).getD j 0 = v.extractLsb' (8 * (7 - j)) 8 := by
  simp [store64be_eq_map_range, List.getD_eq_getElem?_getD, List.getElem?_range hj]

end Sys2Proof.Machine

open Sys2Proof Sys2Proof.Machine

/-- Settles O1: 32-bit addition is commutative and associative, so the order of the terms is free. -/
theorem add32WrapsModuloTwoToThe32 : Obligations.Add32WrapsModuloTwoToThe32 :=
  fun x y z => ⟨toNat_add32 x y, add32_comm x y, add32_assoc x y z⟩

/-- Settles O3, by the positional value of the appended bytes. -/
theorem load32BigEndian : Obligations.Load32BigEndian := toNat_load32be

/-- Settles O5: a byte of the list is a field of `v`, and a field's number is a shift and a remainder. -/
theorem store64BigEndian : Obligations.Store64BigEndian := by
  intro v
  refine ⟨length_store64be v, fun j hj => ?_⟩
  rw [getD_store64be v hj, BitVec.extractLsb'_toNat, Nat.shiftRight_eq_div_pow]

end

