-- ==== Sys2Proof/Proofs/OutputStream.lean ====
section
/-! PROOFS. OutputStream.lean: what commands and steps do to `DOUT` (20_memory.md R32). -/

namespace Sys2Proof.Machine

/-- The body of INGEST emits nothing. -/
theorem ingestBody_dout {len : Nat} {s t : State} (h : ingestBody len s = .ok t) : t.dout = s.dout := by
  rw [(ingestBody_frame h).2]

/-- A finalizing command emits the rendered digest: `n` bytes, where `render` makes `n` bytes of any 20. -/
theorem finalizeAndEmit_dout {render : List Byte → List Byte} {n : Nat} {s t : State}
    (hn : ∀ digest, digest.length = 20 → (render digest).length = n) (h : finalizeAndEmit render s = .ok t) :
    ∃ out, t.dout = s.dout ++ out ∧ out.length = n :=
  ⟨_, congrArg State.dout (finalizeAndEmit_frame h), hn _ (length_serializeDigest _)⟩

/-- The text of a digest of 20 bytes, in either case. -/
theorem length_hexBytes_of_digest (uppercase : Bool) (digest : List Byte) (h : digest.length = 20) :
    (hexBytes uppercase digest).length = 40 := by
  rw [length_hexBytes, h]

/-- A command with a next state appends to `DOUT` what R32 says, and nothing unless it runs. -/
theorem exec_dout {i : Instr} {s t : State} (h : exec i s = .next t) :
    ∃ out, t.dout = s.dout ++ out ∧
      out.length = if s.fault = false ∧ (i = .init ∨ s.phase = .absorb) then emittedCount i else 0 := by
  obtain ⟨hf, rfl⟩ | ⟨hf, hp, hi, rfl⟩ | ⟨hf, rfl, rfl⟩ | ⟨hf, hp, len, rfl, hb⟩ | ⟨hf, hp, rfl, hb⟩ |
    ⟨hf, hp, rfl, hb⟩ | ⟨hf, hp, rfl, hb⟩ := exec_cases h
  case inl => exact ⟨[], by simp [hf]⟩
  case inr.inl => exact ⟨[], by simp [hp, hi]⟩
  case inr.inr.inl => exact ⟨[], by simp [emittedCount]⟩
  case inr.inr.inr.inl => exact ⟨[], by simp [ingestBody_dout hb, emittedCount]⟩
  all_goals simp only [hf, hp, or_true, and_self, if_true, emittedCount]
  · exact finalizeAndEmit_dout (fun _ hd => hd) hb
  · exact finalizeAndEmit_dout (length_hexBytes_of_digest false) hb
  · exact finalizeAndEmit_dout (length_hexBytes_of_digest true) hb

/-- A word taken from CMD, legal or not, leaves what `DOUT` held in place. -/
theorem runCommand_dout_prefix {w : Word} {s t : State} (h : runCommand w s = .next t) : s.dout <+: t.dout := by
  obtain ⟨-, rfl⟩ | ⟨-, -, rfl⟩ | ⟨-, i, -, hi⟩ := runCommand_cases h
  · exact List.prefix_rfl
  · exact List.prefix_rfl
  · obtain ⟨out, hout, -⟩ := exec_dout hi
    exact ⟨out, hout.symm⟩

/-- The host's acts other than RESET do not touch `DOUT`. -/
theorem hostStep_dout {s t : State} (h : hostStep s = .next t) (hr : ∀ rest, s.host ≠ .reset :: rest) :
    t.dout = s.dout := by
  obtain ⟨-, -, rfl⟩ | ⟨bytes, rest, -, rfl⟩ | ⟨rest, hh, -⟩ | ⟨w, rest, -, -, rfl⟩ := hostStep_cases h
  case inr.inr.inl => exact absurd hh (hr rest)
  all_goals rfl

theorem hostStep_of_reset {s : State} {rest : List HostAction} (h : s.host = .reset :: rest) :
    hostStep s = .next { s.resetEngine with host := rest } := by
  simp [hostStep, h]

/-- A step without a RESET leaves what `DOUT` held in place. -/
theorem step_dout_prefix {s t : State} (h : step s = .next t) (hr : ∀ rest, s.host ≠ .reset :: rest) :
    s.dout <+: t.dout := by
  obtain ⟨w, -, hw⟩ | ⟨-, hh⟩ := step_cases h
  · exact runCommand_dout_prefix hw
  · rw [hostStep_dout hh hr]

end Sys2Proof.Machine

open Sys2Proof Sys2Proof.Machine

/-- Settles O53, by what each command writes (its frame), each act of the host, and RESET where the host acts next. -/
theorem doutIsAppendOnly : Obligations.DoutIsAppendOnly :=
  ⟨fun _ _ _ h => exec_dout h,
    fun _ _ h hr => step_dout_prefix h hr,
    fun _ _ hw hh => ⟨_, (step_of_awaitsHost hw).trans (hostStep_of_reset hh), rfl⟩,
    rfl⟩

end

