-- ==== Sys2Proof/Proofs/CommandWords.lean ====
section
/-! PROOFS. CommandWords.lean: which words are commands (30_encoding.md R46 to R51): `encode` and `decode` are inverse,
the rows of R47 as masks, the illegal words of R50 and what one does on `CMD`. -/

namespace Sys2Proof

open Laws.EncodedFields

/-! ### Words and commands -/

/-- R46: the three fields make up the whole word. -/
theorem word_eq_of_fields {w v : Word} (ho : opcField w = opcField v) (hz : zeroField w = zeroField v)
    (hl : lenField w = lenField v) : w = v := by
  apply BitVec.eq_of_toNat_eq
  rw [← BitVec.toNat_inj, opcField_toNat, opcField_toNat] at ho
  rw [← BitVec.toNat_inj, zeroField_toNat, zeroField_toNat] at hz
  rw [← BitVec.toNat_inj, lenField_toNat, lenField_toNat] at hl
  omega

theorem opcField_eq_iff {w : Word} {c : BitVec 8} : opcField w = c ↔ w.toNat / 2 ^ 24 = c.toNat := by
  rw [← BitVec.toNat_inj, opcField_toNat]

theorem zeroField_eq_zero_iff {w : Word} : zeroField w = 0 ↔ w.toNat / 2 ^ 16 % 2 ^ 8 = 0 := by
  rw [← zeroField_toNat]; exact BitVec.toNat_inj.symm

theorem lenField_eq_zero_iff {w : Word} : lenField w = 0 ↔ w.toNat % 2 ^ 16 = 0 := by
  rw [← lenField_toNat]; exact BitVec.toNat_inj.symm

theorem wellFormed_ingest {len : Nat} : (Instr.ingest len).wellFormed = true ↔ len < 2 ^ 16 :=
  decide_eq_true_iff.trans Nat.lt_succ_iff.symm

theorem decode_encode {i : Instr} (h : i.wellFormed = true) : decode (encode i) = .ok i := by
  cases i with
  | ingest len =>
    obtain ⟨hz, ho, hl⟩ := ingest len h
    exact decode_eq_ok.2 ⟨hz, .inl ⟨ho, congrArg _ hl.symm⟩⟩
  | _ => decide

/-- A payload length read from a word fits the `LEN` field. -/
theorem wellFormed_of_decode {w : Word} {i : Instr} (h : decode w = .ok i) : i.wellFormed = true := by
  obtain ⟨-, ⟨-, rfl⟩ | ⟨-, ⟨-, rfl⟩ | ⟨-, rfl⟩ | ⟨-, rfl⟩ | ⟨-, rfl⟩⟩⟩ := decode_eq_ok.1 h
  case inl => exact wellFormed_ingest.2 (lenField w).isLt
  all_goals rfl

/-- Two words that decode to one command have the same fields, so they are the same word. -/
theorem decode_injective {w v : Word} {i : Instr} (hw : decode w = .ok i) (hv : decode v = .ok i) : w = v := by
  rw [decode_eq_ok] at hw hv
  obtain ⟨zw, hw⟩ := hw
  obtain ⟨zv, hv⟩ := hv
  have hz := zw.trans zv.symm
  cases i with
  | ingest len =>
    simp only [Instr.ingest.injEq, reduceCtorEq, and_false, or_false] at hw hv
    exact word_eq_of_fields (hw.1.trans hv.1.symm) hz (BitVec.eq_of_toNat_eq (hw.2.symm.trans hv.2))
  | _ =>
    simp only [reduceCtorEq, and_false, and_true, false_or, or_false] at hw hv
    exact word_eq_of_fields (hw.2.trans hv.2.symm) hz (hw.1.trans hv.1.symm)

/-- R51: the words that decode to a command are exactly its encoding, and only a well-formed command has one. -/
theorem decode_eq_ok_iff_encode {w : Word} {i : Instr} :
    decode w = .ok i ↔ i.wellFormed = true ∧ encode i = w :=
  ⟨fun h => ⟨wellFormed_of_decode h, decode_injective (decode_encode (wellFormed_of_decode h)) h⟩,
    fun ⟨hi, he⟩ => he ▸ decode_encode hi⟩

/-! ### Rows of the table -/

/-- R47: the mask of a row without a payload keeps every bit. -/
theorem and_bareMask (w : Word) : w &&& 0xFFFFFFFF = w := BitVec.and_allOnes

/-- R47: the mask of the `INGEST` row clears the `LEN` field and keeps the rest. -/
theorem toNat_and_ingestMask (w : Word) : (w &&& 0xFFFF0000).toNat = w.toNat / 2 ^ 16 * 2 ^ 16 := by
  have hmask : (0xFFFF0000 : Word) = BitVec.allOnes 32 <<< 16 := by decide
  have hw := w.isLt
  rw [hmask, ← BitVec.shiftLeft_ushiftRight, BitVec.toNat_shiftLeft, BitVec.toNat_ushiftRight,
    Nat.shiftRight_eq_div_pow, Nat.shiftLeft_eq]
  omega

/-- A row without a payload holds one word: its match. -/
theorem decode_eq_ok_iff_bareRow {i : Instr} (hi : i.wellFormed = true) (w : Word) :
    decode w = .ok i ↔ w &&& 0xFFFFFFFF = encode i := by
  rw [decode_eq_ok_iff_encode, and_bareMask, eq_comm (a := w), and_iff_right hi]

theorem decode_eq_ingest {w : Word} {len : Nat} :
    decode w = .ok (.ingest len) ↔ zeroField w = 0 ∧ opcField w = 0x02 ∧ len = (lenField w).toNat := by
  simp only [decode_eq_ok, Instr.ingest.injEq, reduceCtorEq, and_false, or_false]

theorem exists_decode_eq_ingest_iff_ingestRow (w : Word) :
    (∃ len, decode w = .ok (.ingest len)) ↔ w &&& 0xFFFF0000 = 0x02000000 := by
  simp only [decode_eq_ingest, exists_and_left, exists_eq, and_true, zeroField_eq_zero_iff, opcField_eq_iff,
    ← BitVec.toNat_inj (y := 0x02000000), toNat_and_ingestMask, BitVec.reduceToNat]
  omega

/-! ### Illegal words -/

/-- `decode` is total (R51): a word is illegal exactly when it decodes to no command. -/
theorem exists_decode_eq_error_iff {w : Word} : (∃ e, decode w = .error e) ↔ ¬ ∃ i, decode w = .ok i := by
  cases decode w <;> simp

/-- The legal words by their fields: the positive form of R50. -/
theorem exists_decode_eq_ok_iff {w : Word} :
    (∃ i, decode w = .ok i) ↔
      zeroField w = 0 ∧ (opcField w = 0x02 ∨ (lenField w = 0 ∧
        (opcField w = 0x01 ∨ opcField w = 0x03 ∨ opcField w = 0x04 ∨ opcField w = 0x05))) := by
  simp only [decode_eq_ok, exists_and_left, exists_or, exists_eq, and_true]

/-- R50, with the fields as numbers. -/
theorem exists_decode_eq_error_iff_toNat (w : Word) :
    (∃ e, decode w = .error e) ↔
      (w.toNat / 2 ^ 24 = 0 ∨ 6 ≤ w.toNat / 2 ^ 24) ∨ w.toNat / 2 ^ 16 % 2 ^ 8 ≠ 0 ∨
        (w.toNat / 2 ^ 24 ∈ [1, 3, 4, 5] ∧ w.toNat % 2 ^ 16 ≠ 0) := by
  simp only [exists_decode_eq_error_iff, exists_decode_eq_ok_iff, zeroField_eq_zero_iff, lenField_eq_zero_iff,
    opcField_eq_iff, BitVec.reduceToNat, List.mem_cons, List.not_mem_nil, or_false]
  omega

/-- Every well-formed command once: the four without a payload, and an `INGEST` for every value of `LEN`. -/
def legalCommands : List Instr :=
  [.init, .digest, .digestHex, .digestHexUc] ++ (List.range 65536).map .ingest

theorem mem_legalCommands (i : Instr) : i ∈ legalCommands ↔ i.wellFormed = true := by
  cases i with
  | ingest len => simp [legalCommands, wellFormed_ingest]
  | _ => simp [legalCommands, Instr.wellFormed]

theorem legalCommands_nodup : legalCommands.Nodup := by
  have hpayload : ((List.range 65536).map Instr.ingest).Nodup :=
    List.nodup_range.map fun _ _ h => Instr.ingest.inj h
  exact List.nodup_append'.2 ⟨by decide, hpayload, by simp [List.disjoint_left]⟩

/-- The words of the legal commands. -/
def legalWords : List Word := legalCommands.map encode

theorem mem_legalWords (w : Word) : w ∈ legalWords ↔ ∃ i, decode w = .ok i := by
  simp only [legalWords, List.mem_map, mem_legalCommands, decode_eq_ok_iff_encode]

/-- Different commands have different words, as decoding tells them apart. -/
theorem legalWords_nodup : legalWords.Nodup := by
  refine legalCommands_nodup.map_on fun i hi j hj hij => ?_
  have hdi := decode_encode ((mem_legalCommands i).1 hi)
  rw [hij, decode_encode ((mem_legalCommands j).1 hj)] at hdi
  exact (Except.ok.inj hdi).symm

theorem length_legalWords : legalWords.length = 65536 + 4 := by
  simp only [legalWords, legalCommands, List.length_map, List.length_append, List.length_range, List.length_cons,
    List.length_nil]

end Sys2Proof

namespace Sys2Proof.Machine

theorem runCommand_of_error {s : State} {w : Word} {e : IllegalWord} (hf : s.fault = false)
    (hd : decode w = .error e) : runCommand w s = .next (s.takeCommand.raise .illegalCommand) := by
  unfold runCommand
  rw [unlessFaulted_of_not_fault _ (by exact hf), hd]

/-- R101: an illegal word on a non-faulted engine is taken and raises `IllegalCommand`, in one step. -/
theorem step_of_illegal {s : State} {w : Word} {e : IllegalWord} (hf : s.fault = false) (hc : s.cmd = some w)
    (hd : decode w = .error e) : step s = .next (s.takeCommand.raise .illegalCommand) := by
  rw [step_of_cmd hc, runCommand_of_error hf hd, hostStepIfStuck_of_ne (by simp)]

end Sys2Proof.Machine

open Sys2Proof Sys2Proof.Machine

/-- Settles O15: a row without a payload is one word, the row of `INGEST` a whole `LEN` field of them. -/
theorem wordsSelectRowsByMaskAndMatch : Obligations.WordsSelectRowsByMaskAndMatch := by
  refine ⟨fun w => ⟨decode_eq_ok_iff_bareRow rfl w, exists_decode_eq_ingest_iff_ingestRow w, fun len h => ?_,
    decode_eq_ok_iff_bareRow rfl w, decode_eq_ok_iff_bareRow rfl w, decode_eq_ok_iff_bareRow rfl w⟩, ?_⟩
  · obtain ⟨-, -, hlen⟩ := decode_eq_ingest.1 h
    exact hlen.trans (Laws.EncodedFields.lenField_toNat w)
  · decide

/-- Settles O16, by the fields of a word as numbers; the legal words are counted by listing their commands. -/
theorem illegalWordsExactly : Obligations.IllegalWordsExactly :=
  ⟨exists_decode_eq_error_iff_toNat,
    ⟨.opcode, by decide⟩,
    ⟨.zeroField, by decide⟩,
    ⟨legalWords, legalWords_nodup, length_legalWords, mem_legalWords⟩,
    fun _ _ _ hf hc hd => ⟨_, step_of_illegal hf hc hd, rfl, rfl⟩⟩

end

