-- ==== Sys2Proof/Proofs/CompressionCore.lean ====
section
/-! PROOFS. CompressionCore.lean: the five steps of COMPRESS (40_compress.md R56 to R62): the message schedule as a
list of words with its recurrence, the rounds one at a time, and the feed-forward. -/

namespace Sys2Proof.Machine

/-! ### The message schedule -/

/-- R56: word `t` comes from the bytes `4 * t` to `4 * t + 3`. -/
theorem getD_loadWords {t : Nat} {b : List Byte} (h : 4 * t + 3 < b.length) :
    (loadWords b).getD t 0 =
      load32be (b.getD (4 * t) 0) (b.getD (4 * t + 1) 0) (b.getD (4 * t + 2) 0) (b.getD (4 * t + 3) 0) := by
  induction t generalizing b with
  | zero =>
    match b, h with
    | _ :: _ :: _ :: _ :: _, _ => rfl
  | succ t ih =>
    match b, h with
    | _ :: _ :: _ :: _ :: r, h => exact ih (b := r) (by simp only [List.length_cons] at h; omega)

theorem take_length_expandSchedule (n : Nat) (w : List Word) : (expandSchedule n w).take w.length = w := by
  obtain ⟨x, hx, -⟩ := expandSchedule_prefix n w
  rw [hx, List.take_left]

theorem getD_expandSchedule_of_lt (n : Nat) {w : List Word} {i : Nat} (hi : i < w.length) :
    (expandSchedule n w).getD i 0 = w.getD i 0 := by
  obtain ⟨x, hx, -⟩ := expandSchedule_prefix n w
  rw [hx, List.getD_append _ _ _ _ hi]

/-- R57: every word added is computed from the words before it, also as they stand in the finished schedule. -/
theorem getD_expandSchedule {n i : Nat} {w : List Word} (hw : w.length ≤ i) (hi : i < w.length + n) :
    (expandSchedule n w).getD i 0 = nextScheduleWord ((expandSchedule n w).take i) := by
  induction n generalizing w with
  | zero => omega
  | succ n ih =>
    obtain rfl | hlt := hw.eq_or_lt
    · have hnew : (expandSchedule n (w ++ [nextScheduleWord w])).getD w.length 0 = nextScheduleWord w := by
        rw [getD_expandSchedule_of_lt n (by simp), List.getD_append_right _ _ _ _ le_rfl, Nat.sub_self,
          List.getD_cons_zero]
      rw [take_length_expandSchedule, expandSchedule, hnew]
    · have hlen : (w ++ [nextScheduleWord w]).length = w.length + 1 := by simp
      exact ih (by omega) (by omega)

/-- The words that R57 reads stand before place `i`, so they are those of the whole list. -/
theorem nextScheduleWord_take {w : List Word} {i : Nat} (h0 : 0 < i) (hi : i ≤ w.length) :
    nextScheduleWord (w.take i) =
      rotl32 (w.getD (i - 3) 0 ^^^ w.getD (i - 8) 0 ^^^ w.getD (i - 14) 0 ^^^ w.getD (i - 16) 0) 1 := by
  have hback (k : Nat) (hk : 0 < k) : (w.take i).getD (i - k) 0 = w.getD (i - k) 0 := by
    rw [List.getD_eq_getElem?_getD, List.getElem?_take_of_lt (by omega), List.getD_eq_getElem?_getD]
  simp only [nextScheduleWord, List.length_take_of_le hi, hback, Nat.ofNat_pos]

/-- Steps 1 and 2 do not overlap: the first 16 words of the schedule are the loaded ones. -/
theorem getD_schedule_of_lt {block : List Byte} (h : block.length = 64) {t : Nat} (ht : t < 16) :
    (schedule block).getD t 0 = (loadWords block).getD t 0 :=
  getD_expandSchedule_of_lt 64 (by rwa [length_loadWords (n := 16) h])

theorem getD_schedule_of_ge {block : List Byte} (h : block.length = 64) {i : Nat} (h16 : 16 ≤ i) (hi : i < 80) :
    (schedule block).getD i 0 = nextScheduleWord ((schedule block).take i) := by
  have hlen := length_loadWords (n := 16) h
  exact getD_expandSchedule (by omega) (by omega)

/-! ### The rounds and the feed-forward -/

/-- R61: the round after the first `i` takes the schedule word `i`. -/
theorem compressRounds_take_succ {ws : List Word} {i : Nat} (hi : i < ws.length) (v : Working) :
    compressRounds 0 (ws.take (i + 1)) v = compressRound i (ws.getD i 0) (compressRounds 0 (ws.take i) v) := by
  rw [← List.take_append_getElem hi, compressRounds_snoc, List.length_take_of_le hi.le, Nat.zero_add,
    List.getD_eq_getElem _ _ hi]

/-- R63: what `compress` computes, for proofs that speak of its steps. -/
theorem compress_eq_feedForward (h : RunningState) (block : List Byte) :
    compress h block = feedForward h (compressRounds 0 (schedule block) (startWorking h)) := by
  rw [compress]

/-! ### The round constants -/

theorem roundConstant_of_lt_20 {i : Nat} (h : i < 20) : roundConstant i = 0x5A827999 := if_pos h

theorem roundConstant_of_lt_40 {i : Nat} (hl : 20 ≤ i) (h : i < 40) : roundConstant i = 0x6ED9EBA1 := by
  rw [roundConstant, if_neg (by omega), if_pos h]

theorem roundConstant_of_lt_60 {i : Nat} (hl : 40 ≤ i) (h : i < 60) : roundConstant i = 0x8F1BBCDC := by
  rw [roundConstant, if_neg (by omega), if_neg (by omega), if_pos h]

theorem roundConstant_of_ge_60 {i : Nat} (hl : 60 ≤ i) : roundConstant i = 0xCA62C1D6 := by
  rw [roundConstant, if_neg (by omega), if_neg (by omega), if_neg (by omega)]

end Sys2Proof.Machine

open Sys2Proof Sys2Proof.Machine

/-- Settles O7: the expansion keeps the loaded words, and word `t` is made of the bytes from `4 * t` on. -/
theorem scheduleLoadsBlockWords : Obligations.ScheduleLoadsBlockWords := by
  intro block hb t ht
  rw [getD_schedule_of_lt hb ht, getD_loadWords (by omega)]

/-- Settles O8: word `i` is computed from the first `i` words, which later words leave in place. -/
theorem scheduleExpansionRecurrence : Obligations.ScheduleExpansionRecurrence := by
  intro block hb
  have hlen := length_schedule hb
  refine ⟨hlen, fun i h16 hi => ?_⟩
  rw [getD_schedule_of_ge hb h16 hi, nextScheduleWord_take (by omega) (by omega)]

/-- Settles O10, a case of the definition for each group. -/
theorem roundConstantsOfTheFourGroups : Obligations.RoundConstantsOfTheFourGroups :=
  fun _ => ⟨roundConstant_of_lt_20, fun ⟨hl, h⟩ => roundConstant_of_lt_40 hl h,
    fun ⟨hl, h⟩ => roundConstant_of_lt_60 hl h, fun ⟨hl, _⟩ => roundConstant_of_ge_60 hl⟩

/-- Settles O11: no round leaves the start, and round `i` is the last of the first `i + 1`. -/
theorem roundsUpdateWorkingVariables : Obligations.RoundsUpdateWorkingVariables := by
  intro h block hb
  constructor
  · rw [List.take_zero]
    rfl
  · rintro i hi v rfl
    rw [compressRounds_take_succ (by rwa [length_schedule hb])]
    rfl

/-- Settles O12: the 80 rounds use the whole schedule. -/
theorem feedForwardAddsWorkingVariables : Obligations.FeedForwardAddsWorkingVariables := by
  intro h block hb v hv
  rw [List.take_of_length_le (length_schedule hb).le] at hv
  rw [compress_eq_feedForward, ← hv, feedForward]

end

