-- ==== Sys2Proof/Proofs/Accumulator.lean ====
section
/-! PROOFS. Accumulator.lean: `INIT`, and the two paths of `INGEST` as one iteration of its loop each (41_accumulator.md
R65 to R69). -/

namespace Sys2Proof.Machine

/-! ### INIT -/

theorem exec_init_of_not_fault {s : State} (h : s.fault = false) : exec .init s = .next s.freshInstance :=
  unlessFaulted_of_not_fault _ h

theorem exec_init_of_fault {s : State} (h : s.fault = true) : exec .init s = .next s :=
  unlessFaulted_of_fault _ h

/-! ### The loop of INGEST, one iteration at a time -/

@[simp] theorem ingestLoop_nil (fuel : Nat) (s : State) : ingestLoop fuel [] s = .ok s := by
  cases fuel <;> rfl

/-- R67: the direct path is open with an empty buffer and a block of input to go, and only then. -/
theorem State.directPathReady_eq_true_iff {s : State} {n : Nat} :
    s.directPathReady n = true ↔ s.curlen = 0 ∧ 64 ≤ n := by
  simp [State.directPathReady]

theorem bufferedCount_of_le {s : State} {n : Nat} (h : s.curlen.toNat + n ≤ 64) : bufferedCount n s = n :=
  Nat.min_eq_left (Nat.le_sub_of_add_le' h)

theorem bufferedCount_of_ge {s : State} {n : Nat} (h : 64 ≤ s.curlen.toNat + n) :
    bufferedCount n s = 64 - s.curlen.toNat :=
  Nat.min_eq_right (Nat.sub_le_iff_le_add'.2 h)

/-- R68, one iteration of the loop. -/
theorem ingestLoop_of_direct {fuel : Nat} {data : List Byte} {s : State} (hc : s.curlen = 0) (h : 64 ≤ data.length) :
    ingestLoop (fuel + 1) data s = ingestLoop fuel (data.drop 64) (directPath (data.take 64) s) := by
  cases data with
  | nil => simp at h
  | cons b bs => rw [ingestLoop, if_pos (State.directPathReady_eq_true_iff.2 ⟨hc, h⟩)]

/-- R69, one iteration of the loop. -/
theorem ingestLoop_of_buffered {fuel : Nat} {data : List Byte} {s t : State} (hpos : 1 ≤ data.length)
    (hd : s.curlen ≠ 0 ∨ data.length < 64) (ht : bufferedPath data s = .ok t) :
    ingestLoop (fuel + 1) data s = ingestLoop fuel (data.drop (bufferedCount data.length s)) t := by
  cases data with
  | nil => simp at hpos
  | cons b bs =>
    have hclosed : ¬ s.directPathReady (b :: bs).length = true := by
      rw [State.directPathReady_eq_true_iff]
      rintro ⟨hc, hn⟩
      exact hd.elim (fun h => h hc) (fun h => absurd hn (Nat.not_le.2 h))
    rw [ingestLoop, if_neg hclosed, ht]

/-! ### INGEST and its loop -/

theorem exec_ingest_of_le {s : State} {len : Nat} (hf : s.fault = false) (hp : s.phase = .absorb)
    (h : len ≤ s.din.length) :
    exec (.ingest len) s = outcomeOf (ingestLoop (len + 1) (s.din.take len) { s with din := s.din.drop len }) :=
  (admitted_of_absorb _ hf hp).trans (congrArg outcomeOf (ingestBody_of_le h))

/-- An `INGEST` of `len` bytes whose loop has consumed `k` of them goes on as an `INGEST` of the other bytes from the
state `u` it stands in, but for the moment the payload leaves `DIN`: the loop's was taken whole beforehand. -/
theorem exec_ingest_rest {u : State} {din : List Byte} {k len : Nat} (hf : u.fault = false) (hp : u.phase = .absorb)
    (hc : u.curlen.toNat ≤ 63) (hdin : u.din = din.drop k) (hk : k ≤ len) (hlen : len ≤ din.length) :
    exec (.ingest (len - k)) u =
      outcomeOf (ingestLoop len ((din.take len).drop k) { u with din := din.drop len }) := by
  have hpay : len - k ≤ u.din.length := by
    rw [hdin, List.length_drop]
    exact Nat.sub_le_sub_right hlen k
  have htake : u.din.take (len - k) = (din.take len).drop k := by rw [hdin, List.drop_take]
  have hdrop : u.din.drop (len - k) = din.drop len := by rw [hdin, List.drop_drop, Nat.add_sub_cancel' hk]
  have hbytes : ((din.take len).drop k).length ≤ len - k := by rw [← htake]; exact List.length_take_le _ _
  rw [exec_ingest_of_le hf hp hpay, htake, hdrop]
  exact congrArg outcomeOf (ingestLoop_fuel (by omega) (by omega) hc)

/-- R68 for the command. -/
theorem exec_ingest_of_direct {s : State} {len : Nat} (hf : s.fault = false) (hp : s.phase = .absorb)
    (hc : s.curlen = 0) (hblock : 64 ≤ len) (hlen : len ≤ s.din.length) :
    exec (.ingest len) s =
      exec (.ingest (len - 64)) { directPath (s.din.take 64) s with din := s.din.drop 64 } := by
  have hc' : s.curlen.toNat ≤ 63 := by simp [hc]
  have htake : (s.din.take len).take 64 = s.din.take 64 := by rw [List.take_take, Nat.min_eq_left hblock]
  rw [exec_ingest_of_le hf hp hlen,
    ingestLoop_of_direct (s := { s with din := s.din.drop len }) hc (by rwa [List.length_take_of_le hlen]), htake]
  exact Eq.symm (exec_ingest_rest hf hp hc' rfl hblock hlen)

/-- R69 for the command, the buffer not filled: every byte is kept. -/
theorem exec_ingest_of_kept {s : State} {len : Nat} (hf : s.fault = false) (hp : s.phase = .absorb) (hpos : 1 ≤ len)
    (hlen : len ≤ s.din.length) (hfit : s.curlen.toNat + len < 64) :
    exec (.ingest len) s =
      .next { s with
        buf := Memory.writeAll s.curlen.toNat (s.din.take len) s.buf
        curlen := BitVec.ofNat 7 (s.curlen.toNat + len)
        din := s.din.drop len } := by
  have hn : (s.din.take len).length = len := List.length_take_of_le hlen
  have hcur : s.curlen + BitVec.ofNat 7 len = BitVec.ofNat 7 (s.curlen.toNat + len) := by
    rw [BitVec.ofNat_add, BitVec.ofNat_toNat, BitVec.setWidth_eq]
  have hpath := bufferedPath_of_lt (s := { s with din := s.din.drop len }) (data := s.din.take len) (by rwa [hn])
  have hcount : bufferedCount len { s with din := s.din.drop len } = len := bufferedCount_of_le hfit.le
  rw [exec_ingest_of_le hf hp hlen, ingestLoop_of_buffered (by omega) (.inr (by omega)) hpath, hn, hcount,
    List.drop_eq_nil_of_le hn.le, ingestLoop_nil, outcomeOf_ok, hcur]

/-- R69 for the command, the buffer filled by its first `64 - CURLEN` bytes. -/
theorem exec_ingest_of_filled {s : State} {len : Nat} {live : List Byte} (hf : s.fault = false) (hp : s.phase = .absorb)
    (hc : s.curlen.toNat ≤ 63) (hl : Memory.readList s.curlen.toNat 0 s.buf = some live) (hlen : len ≤ s.din.length)
    (hd : s.curlen ≠ 0 ∨ len < 64) (hfull : 64 ≤ s.curlen.toNat + len) :
    exec (.ingest len) s =
      exec (.ingest (len - (64 - s.curlen.toNat))) { s with
        h := compress s.h (live ++ s.din.take (64 - s.curlen.toNat))
        buf := Memory.writeAll s.curlen.toNat (s.din.take (64 - s.curlen.toNat)) s.buf
        length := add64 s.length 512
        curlen := 0
        din := s.din.drop (64 - s.curlen.toNat) } := by
  have hn : (s.din.take len).length = len := List.length_take_of_le hlen
  have htake : (s.din.take len).take (64 - s.curlen.toNat) = s.din.take (64 - s.curlen.toNat) := by
    rw [List.take_take, Nat.min_eq_left (by omega)]
  have hpath := bufferedPath_of_ge (s := { s with din := s.din.drop len }) (data := s.din.take len)
    (by exact Nat.le_succ_of_le hc) (by rwa [hn]) hl
  have hcount : bufferedCount len { s with din := s.din.drop len } = 64 - s.curlen.toNat := bufferedCount_of_ge hfull
  rw [exec_ingest_of_le hf hp hlen, ingestLoop_of_buffered (by omega) (by rwa [hn]) hpath, hn, hcount, htake]
  exact Eq.symm (exec_ingest_rest hf hp (Nat.zero_le 63) rfl (by omega) hlen)

end Sys2Proof.Machine

open Sys2Proof Sys2Proof.Machine

/-- Settles O22, by the admission of `INIT`: refused by a faulted engine, else the fresh instance. -/
theorem initCreatesFreshInstance : Obligations.InitCreatesFreshInstance :=
  ⟨fun _ h => exec_init_of_not_fault h, fun _ h => exec_init_of_fault h, Memory.read_nil, rfl⟩

/-- Settles O24: the loop takes the direct path first, and goes on as the loop of the shorter `INGEST`. -/
theorem ingestDirectPath : Obligations.IngestDirectPath :=
  fun _ _ hf hp hc hblock hlen => exec_ingest_of_direct hf hp hc hblock hlen

/-- Settles O25: the buffer is the old one with the copied bytes written from `CURLEN` up; it keeps all of the input or
is filled by the first `64 - CURLEN` bytes. -/
theorem ingestBufferedPath : Obligations.IngestBufferedPath := by
  intro s len k live hf hp hc hl hpos hlen hd hk
  have hn : (s.din.take k).length = k := List.length_take_of_le (by omega)
  refine ⟨Memory.writeAll s.curlen.toNat (s.din.take k) s.buf, ?copied, ?others, ?kept, ?filled⟩
  case copied =>
    intro j hj
    rw [Memory.read_writeAll, if_pos (by omega), Nat.add_sub_cancel_left, List.getElem?_take_of_lt hj]
  case others =>
    rintro i (hi | hi)
    · exact Memory.read_writeAll_of_lt _ _ hi
    · exact Memory.read_writeAll_of_ge _ _ (by rwa [hn])
  case kept =>
    intro hfit
    obtain rfl : k = len := by omega
    exact ⟨rfl, exec_ingest_of_kept hf hp hpos hlen hfit⟩
  case filled =>
    intro hfull
    obtain rfl : k = 64 - s.curlen.toNat := by omega
    exact exec_ingest_of_filled hf hp hc hl hlen hd (by omega)

end

