-- ==== Sys2Proof/Proofs/Finalizer.lean ====
section
/-! PROOFS. Finalizer.lean: the bytes of the digest, word by word (42_finalizer.md R80). -/

namespace Sys2Proof.Machine

/-- In a concatenation of pieces of one length `n`, index `n * j + k` is index `k` of piece `j`. -/
theorem getElem?_flatMap_of_length_eq {α β : Type} {f : α → List β} {n k : Nat} (hf : ∀ a, (f a).length = n) (hk : k < n)
    (l : List α) (j : Nat) : (l.flatMap f)[n * j + k]? = l[j]?.bind fun a => (f a)[k]? := by
  induction l generalizing j with
  | nil => simp
  | cons a l ih =>
    rw [List.flatMap_cons]
    cases j with
    | zero => rw [List.getElem?_append_left (by rw [hf]; omega)]; simp
    | succ j =>
      have hindex : n * (j + 1) + k = (f a).length + (n * j + k) := by rw [hf]; ring
      rw [hindex, List.getElem?_append_right (Nat.le_add_right _ _), Nat.add_sub_cancel_left, ih,
        List.getElem?_cons_succ]

/-- R9: byte `k` stands at bits `31 - 8 * k` down to `24 - 8 * k`. -/
theorem store32be_eq_map_range (w : Word) :
    store32be w = (List.range 4).map fun k => w.extractLsb' (8 * (3 - k)) 8 := rfl

theorem getD_store32be (w : Word) {k : Nat} (hk : k < 4) :
    (store32be w).getD k 0 = w.extractLsb' (8 * (3 - k)) 8 := by
  simp [store32be_eq_map_range, List.getD_eq_getElem?_getD, List.getElem?_range hk]

theorem toNat_getD_store32be (w : Word) {k : Nat} (hk : k < 4) :
    ((store32be w).getD k 0).toNat = w.toNat / 2 ^ (8 * (3 - k)) % 2 ^ 8 := by
  rw [getD_store32be w hk, BitVec.extractLsb'_toNat, Nat.shiftRight_eq_div_pow]

/-- R80: the five words in order, each by `store32be`. -/
theorem serializeDigest_eq_flatMap (h : RunningState) :
    serializeDigest h = [h.h0, h.h1, h.h2, h.h3, h.h4].flatMap store32be := rfl

theorem getD_serializeDigest (h : RunningState) {j k : Nat} (hj : j < 5) (hk : k < 4) :
    (serializeDigest h).getD (4 * j + k) 0 = (store32be ([h.h0, h.h1, h.h2, h.h3, h.h4].getD j 0)).getD k 0 := by
  have hword : [h.h0, h.h1, h.h2, h.h3, h.h4][j]? = some ([h.h0, h.h1, h.h2, h.h3, h.h4].getD j 0) := by
    rw [List.getD_eq_getElem _ _ hj, List.getElem?_eq_getElem]
  rw [serializeDigest_eq_flatMap, List.getD_eq_getElem?_getD, getElem?_flatMap_of_length_eq length_store32be hk, hword,
    Option.bind_some, ← List.getD_eq_getElem?_getD]

end Sys2Proof.Machine

open Sys2Proof Sys2Proof.Machine

/-- Settles O30: byte `4 * j + k` of the digest is byte `k` of word `j`, a field of that word. -/
theorem digestSerializesWordsBigEndian : Obligations.DigestSerializesWordsBigEndian := by
  intro h
  refine ⟨length_serializeDigest h, fun j k hj hk => ?_⟩
  rw [getD_serializeDigest h hj hk, toNat_getD_store32be _ hk]

end

