-- ==== Sys2Proof/Proofs/Hex.lean ====
section
/-! PROOFS. Hex.lean: the digits and the text of a digest (43_hex.md R86, R87). -/

namespace Sys2Proof.Machine

/-- R87: the high nibble of a byte is its quotient by 16. -/
theorem extractLsb'_high_nibble (b : Byte) : b.extractLsb' 4 4 = BitVec.ofNat 4 (b.toNat / 16) := by
  apply BitVec.eq_of_toNat_eq
  rw [BitVec.extractLsb'_toNat, BitVec.toNat_ofNat, Nat.shiftRight_eq_div_pow]

/-- R87: the low nibble of a byte is its remainder by 16. -/
theorem extractLsb'_low_nibble (b : Byte) : b.extractLsb' 0 4 = BitVec.ofNat 4 (b.toNat % 16) := by
  apply BitVec.eq_of_toNat_eq
  rw [BitVec.extractLsb'_toNat, BitVec.toNat_ofNat, Nat.shiftRight_zero, Nat.mod_mod]

/-- R87: the two characters of a byte, high nibble first, by quotient and remainder. -/
theorem hexByte_eq (uppercase : Bool) (b : Byte) :
    hexByte uppercase b =
      [hexDigit (BitVec.ofNat 4 (b.toNat / 16)) uppercase, hexDigit (BitVec.ofNat 4 (b.toNat % 16)) uppercase] := by
  rw [hexByte, extractLsb'_high_nibble, extractLsb'_low_nibble]

theorem length_hexByte (uppercase : Bool) (b : Byte) : (hexByte uppercase b).length = 2 := rfl

/-- R87: character `2 * j + k` of the text is character `k` of byte `j`. -/
theorem getElem?_toHex {digest : List Byte} {j k : Nat} (uppercase : Bool) (hj : j < digest.length) (hk : k < 2) :
    (toHex digest uppercase)[2 * j + k]? = (hexByte uppercase (digest.getD j 0))[k]? := by
  rw [toHex, getElem?_flatMap_of_length_eq (length_hexByte uppercase) hk, List.getElem?_eq_getElem hj, Option.bind_some,
    List.getD_eq_getElem _ _ hj]

end Sys2Proof.Machine

open Sys2Proof Sys2Proof.Machine

/-- Settles O35: character `2 * j + k` is character `k` of byte `j`, whose two characters are the digits of its quotient
and of its remainder by 16. -/
theorem toHexRendersNibblesInOrder : Obligations.ToHexRendersNibblesInOrder := by
  intro digest uppercase hlen
  refine ⟨by rw [length_toHex, hlen], fun j hj => ?_⟩
  have hj' : j < digest.length := by omega
  constructor
  · rw [← Nat.add_zero (2 * j), getElem?_toHex uppercase hj' (by decide), hexByte_eq, List.getElem?_cons_zero]
  · rw [getElem?_toHex uppercase hj' (by decide), hexByte_eq, List.getElem?_cons_succ, List.getElem?_cons_zero]

/-- Settles O34: the two alphabets, read at the sixteen digit values. -/
theorem hexDigitTable : Obligations.HexDigitTable := by
  constructor <;> decide

end

