-- ==== Sys2Proof/Proofs/Exceptions.lean ====
section
/-! PROOFS. Exceptions.lean: the two faults, and a faulted engine, which refuses every word (60_exceptions.md R101 to
R103). -/

namespace Sys2Proof.Machine

/-! ### A faulted engine -/

/-- R103 for a command: refused. -/
theorem exec_of_fault (i : Instr) {s : State} (h : s.fault = true) : exec i s = .next s := by
  cases i with
  | init => exact exec_init_of_fault h
  | _ => exact admitted_of_fault _ h

theorem runCommand_of_fault (w : Word) {s : State} (h : s.fault = true) : runCommand w s = .next s.takeCommand :=
  unlessFaulted_of_fault _ h

/-- R103 for a word on `CMD`, legal or not: it is taken, and nothing else happens. -/
theorem step_of_fault_of_cmd {s : State} {w : Word} (h : s.fault = true) (hc : s.cmd = some w) :
    step s = .next s.takeCommand := by
  rw [step_of_cmd hc, runCommand_of_fault w h]
  rfl

/-- The host's acts other than RESET reach the ports only. -/
theorem hostStep_frame {s t : State} (h : hostStep s = .next t) (hr : ∀ rest, s.host ≠ .reset :: rest) :
    t = { s with din := t.din, cmd := t.cmd, host := t.host } := by
  obtain ⟨-, -, rfl⟩ | ⟨bytes, rest, -, rfl⟩ | ⟨rest, hh, -⟩ | ⟨w, rest, -, -, rfl⟩ := hostStep_cases h
  case inr.inr.inl => exact absurd hh (hr rest)
  all_goals rfl

/-- R103, R106: a step leaves a fault and its code as they are, unless the host resets an engine without a word on
`CMD`. -/
theorem step_keeps_fault {s t : State} (hf : s.fault = true) (h : step s = .next t) :
    (t.fault = true ∧ t.fcode = s.fcode) ∨ (s.cmd = none ∧ ∃ rest, s.host = .reset :: rest) := by
  cases hc : s.cmd with
  | some w =>
    obtain rfl := Host.Outcome.next.inj ((step_of_fault_of_cmd hf hc).symm.trans h)
    exact .inl ⟨hf, rfl⟩
  | none =>
    rw [step_of_no_cmd hc] at h
    by_cases hreset : ∃ rest, s.host = .reset :: rest
    · exact .inr ⟨rfl, hreset⟩
    · rw [hostStep_frame h (not_exists.1 hreset)]
      exact .inl ⟨hf, rfl⟩

theorem not_isFinal_of_fault {s : State} (h : s.fault = true) : ¬ s.isFinal :=
  fun ⟨hf, _⟩ => Bool.false_ne_true (hf.symm.trans h)

/-! ### Phase DONE -/

/-- R102: every command but `INIT` is turned away before its body. -/
theorem exec_of_done {i : Instr} {s : State} (hi : i ≠ .init) (hf : s.fault = false) (hp : s.phase = .done) :
    exec i s = .next (s.raise .usageViolation) := by
  cases i with
  | init => exact absurd rfl hi
  | _ => exact admitted_of_done _ hf hp

end Sys2Proof.Machine

open Sys2Proof Sys2Proof.Machine

/-- Settles O44: commands and words are refused; with no word on `CMD`, only the host's RESET reaches the fault. -/
theorem faultedEngineRefusesEverything : Obligations.FaultedEngineRefusesEverything :=
  fun _ hf =>
    ⟨fun i => exec_of_fault i hf,
      fun _ hc => ⟨_, step_of_fault_of_cmd hf hc, rfl⟩,
      fun _ h => step_keeps_fault hf h,
      not_isFinal_of_fault hf⟩

/-- Settles O42, by the one step of an illegal word: fault entry writes `FAULT` and `FCODE`, the taking of the word
`CMD` and `CP`. -/
theorem illegalCommandFault : Obligations.IllegalCommandFault :=
  fun _ _ _ hf hc hd => ⟨_, step_of_illegal hf hc hd, rfl⟩

/-- Settles O43, by the admission in phase `DONE`, which `INIT` does not pass through. -/
theorem usageViolationInPhaseDone : Obligations.UsageViolationInPhaseDone :=
  fun _ hf hp =>
    ⟨fun _ hi => exec_of_done hi hf hp, _, exec_init_of_not_fault hf, hf, rfl, rfl⟩

end

