-- ==== Sys2Proof/Proofs/Reset.lean ====
section
/-! PROOFS. Reset.lean: the RESET event (70_reset_and_hazards.md R112). -/

namespace Sys2Proof.Machine

/-- R112: where the host acts next, a RESET leaves the state after reset, but for what the host does later. -/
theorem step_of_reset {s : State} {rest : List HostAction} (hw : s.AwaitsHost) (hr : s.host = .reset :: rest) :
    step s = .next { State.reset with host := rest } := by
  rw [step_of_awaitsHost hw, hostStep_of_reset hr, State.resetEngine_eq]

end Sys2Proof.Machine

open Sys2Proof Sys2Proof.Machine

/-- Settles O18: the step leaves `State.reset` with the host's later acts, whose fields are the values listed; its `BUF`
is the empty memory, which holds no byte. -/
theorem resetEventCreatesFreshInstance : Obligations.ResetEventCreatesFreshInstance :=
  fun _ _ hw hr => ⟨_, step_of_reset hw hr, rfl, rfl, rfl, rfl, rfl, rfl, Memory.read_nil, rfl, rfl, rfl⟩

end

