-- ==== Sys2Proof/Proofs/Words.lean ====
section
/-! PROOFS. Words.lean: the words of the machine as numbers and bits: commands and their encoding (30_encoding.md),
rotation, the mixing functions and the byte order (00_scope.md section 6, 40_compress.md section 2), `STATUS`
(10_state.md section 4). -/

namespace Sys2Proof.Machine

/-! ### Rotation -/

/-- R6: for the amounts in its range `rotl32` is the library's rotation. -/
theorem rotl32_eq_rotateLeft (x : Word) {n : Nat} (h : n < 32) : rotl32 x n = x.rotateLeft n := by
  rw [BitVec.rotateLeft_def, Nat.mod_eq_of_lt h, rotl32]

/-- The part shifted up and the part shifted down do not overlap, so their disjunction is their sum. -/
theorem toNat_rotl32 (x : Word) {n : Nat} (h : n < 32) :
    (rotl32 x n).toNat = x.toNat * 2 ^ n % 2 ^ 32 + x.toNat / 2 ^ (32 - n) := by
  have hsplit : 2 ^ 32 = 2 ^ (32 - n) * 2 ^ n := by rw [← Nat.pow_add, Nat.sub_add_cancel h.le]
  have hhigh : x.toNat * 2 ^ n % 2 ^ 32 = (x.toNat % 2 ^ (32 - n)) <<< n := by
    rw [hsplit, Nat.mul_mod_mul_right, Nat.shiftLeft_eq]
  have hlow : x.toNat / 2 ^ (32 - n) < 2 ^ n := Nat.div_lt_of_lt_mul (hsplit ▸ x.isLt)
  rw [rotl32, BitVec.toNat_or, BitVec.toNat_shiftLeft, BitVec.toNat_ushiftRight, Nat.shiftLeft_eq,
    Nat.shiftRight_eq_div_pow, hhigh, Nat.shiftLeft_add_eq_or_of_lt hlow]

theorem getLsbD_rotl32 (x : Word) {n i : Nat} (h : n < 32) (hi : i < 32) :
    (rotl32 x n).getLsbD ((i + n) % 32) = x.getLsbD i := by
  rw [rotl32_eq_rotateLeft x h, BitVec.getLsbD_rotateLeft, Nat.mod_eq_of_lt h, Bool.cond_decide]
  by_cases hwrap : i + n < 32
  · rw [Nat.mod_eq_of_lt hwrap, if_neg (by omega), Nat.add_sub_cancel, decide_eq_true hwrap, Bool.true_and]
  · have hpos : (i + n) % 32 = i + n - 32 := by omega
    have hback : 32 - n + (i + n - 32) = i := by omega
    rw [hpos, if_pos (by omega), hback]

/-! ### The mixing functions -/

theorem mix_choice {i : Nat} (h : i < 20) (b c d : Word) : mix i b c d = d ^^^ (b &&& (c ^^^ d)) := if_pos h

theorem mix_parity {i : Nat} (h : 20 ≤ i ∧ i < 40 ∨ 60 ≤ i ∧ i < 80) (b c d : Word) : mix i b c d = b ^^^ c ^^^ d := by
  unfold mix
  obtain ⟨h1, h2⟩ | ⟨h1, h2⟩ := h
  · rw [if_neg (by omega), if_pos h2]
  · rw [if_neg (by omega), if_neg (by omega), if_neg (by omega)]

theorem mix_majority {i : Nat} (h : 40 ≤ i ∧ i < 60) (b c d : Word) :
    mix i b c d = (b &&& c) ||| (d &&& (b ||| c)) := by
  rw [mix, if_neg (by omega), if_neg (by omega), if_pos h.2]

/-! ### The byte order -/

/-- R9: `load32be` undoes `store32be`. -/
theorem load32be_store32be (w : Word) :
    load32be ((store32be w).getD 0 0) ((store32be w).getD 1 0) ((store32be w).getD 2 0) ((store32be w).getD 3 0) =
      w := by
  have hw := w.isLt
  apply BitVec.eq_of_toNat_eq
  rw [toNat_load32be]
  simp only [toNat_getD_store32be, Nat.ofNat_pos, Nat.one_lt_ofNat, Nat.reduceLT, Nat.reduceSub, Nat.reduceMul]
  omega

/-- R9: `store32be` undoes `load32be`. -/
theorem store32be_load32be (b0 b1 b2 b3 : Byte) : store32be (load32be b0 b1 b2 b3) = [b0, b1, b2, b3] := by
  have hfield : ∀ {k : Nat} {b : Byte}, (load32be b0 b1 b2 b3).toNat / 2 ^ k % 2 ^ 8 = b.toNat →
      (load32be b0 b1 b2 b3).extractLsb' k 8 = b := fun h => BitVec.eq_of_toNat_eq <| by
    rw [BitVec.extractLsb'_toNat, Nat.shiftRight_eq_div_pow, h]
  have h0 := b0.isLt
  have h1 := b1.isLt
  have h2 := b2.isLt
  have h3 := b3.isLt
  simp only [toNat_load32be] at hfield
  rw [store32be, hfield (k := 24) (b := b0), hfield (k := 16) (b := b1), hfield (k := 8) (b := b2),
    hfield (k := 0) (b := b3)] <;> omega

/-- R11: `add64` is the sum modulo `2 ^ 64`. -/
@[simp] theorem toNat_add64 (x y : DWord) : (add64 x y).toNat = (x.toNat + y.toNat) % 2 ^ 64 := BitVec.toNat_add x y

/-! ### STATUS -/

/-- R20: the fields of `STATUS` in their places. -/
theorem State.status_toNat (s : State) :
    s.status.toNat = s.phase.bit.toNat + 2 * s.fault.toNat + 4 * s.fcode.bits.toNat := by
  simp only [State.status, toNat_append_eq_mul_add, BitVec.toNat_ofBool]
  simp
  omega

/-- The bits of `STATUS` that the invariant leaves free: `FAULT` follows `FCODE`, and a `UsageViolation` the phase. -/
theorem Inv.status_mem {s : State} (h : Inv s) : s.status.toNat ∈ [0x00, 0x01, 0x06, 0x07, 0x0B] := by
  have hfault := h.fault_fcode
  have hphase := h.usage_done
  rw [State.status_toNat]
  revert hfault hphase
  cases s.fcode <;> cases s.fault <;> cases s.phase <;> decide

end Sys2Proof.Machine

open Sys2Proof Sys2Proof.Machine

/-- Settles O13: decoding reads back the opcode and the `LEN` that encoding wrote. -/
theorem decodeOfEncodeIsTheCommand : Obligations.DecodeOfEncodeIsTheCommand := fun _ => decode_encode

/-- Settles O14: a decoded command is well formed, and its encoding is the one word that decodes to it. -/
theorem encodeOfDecodeIsTheWord : Obligations.EncodeOfDecodeIsTheWord := fun _ _ => decode_eq_ok_iff_encode.1

/-- Settles O17, by running the decoder on the nine words. -/
theorem sampleWordsDecode : Obligations.SampleWordsDecode := by
  unfold Obligations.SampleWordsDecode
  decide

/-- Settles O2: the three amounts are below 32. -/
theorem rotl32MovesEveryBit : Obligations.Rotl32MovesEveryBit := by
  intro x n hn
  have h : n < 32 := by omega
  exact ⟨toNat_rotl32 x h, fun _ hi => getLsbD_rotl32 x h hi⟩

/-- Settles O9: bit `j` of each expression of R59, by the values of the three bits. -/
theorem mixFunctionTruthTable : Obligations.MixFunctionTruthTable := by
  intro i b c d j hj
  refine ⟨fun h => ?choice, fun h => ?parity, fun h => ?majority⟩
  case choice =>
    rw [mix_choice h, BitVec.getLsbD_xor, BitVec.getLsbD_and, BitVec.getLsbD_xor]
    cases b.getLsbD j <;> cases c.getLsbD j <;> cases d.getLsbD j <;> rfl
  case parity =>
    rw [mix_parity h, BitVec.getLsbD_xor, BitVec.getLsbD_xor]
  case majority =>
    rw [mix_majority h, BitVec.getLsbD_or, BitVec.getLsbD_and, BitVec.getLsbD_and, BitVec.getLsbD_or]
    cases b.getLsbD j <;> cases c.getLsbD j <;> cases d.getLsbD j <;> rfl

/-- Settles O4, both ways, by the positional value of the four bytes. -/
theorem store32BigEndian : Obligations.Store32BigEndian :=
  ⟨fun w => ⟨length_store32be w, fun _ hj => toNat_getD_store32be w hj, load32be_store32be w⟩, store32be_load32be⟩

/-- Settles O20: the bits of each field, as numbers. -/
theorem statusRegisterLayout : Obligations.StatusRegisterLayout := by
  intro s
  rw [State.status_toNat]
  cases s.phase <;> cases s.fault <;> cases s.fcode <;> rfl

/-- Settles O21: the invariant excludes the other values of the three fields. -/
theorem statusTakesFiveValues : Obligations.StatusTakesFiveValues := fun _ => Inv.status_mem

end

