-- ==== Sys2Proof/Proofs/Ingestion.lean ====
section
/-! PROOFS. Ingestion.lean: the closed form of ingestion (41_accumulator.md section 3, R70 to R72), from any state with
its live bytes written. -/

namespace Sys2Proof.Machine

/-- R72 from any start: `s` is where an instance stands that had the running state `h0` and the count `l0` with nothing
buffered, and has taken in `m` since. Each block compressed and counted, and the tail buffered. -/
structure AbsorbedFrom (h0 : RunningState) (l0 : DWord) (m : List Byte) (s : State) : Prop where
  absorbing : s.phase = .absorb
  h_eq : s.h = compressBlocks (m.length / 64) h0 m
  curlen_eq : s.curlen.toNat = m.length % 64
  length_eq : s.length = l0 + BitVec.ofNat 64 (512 * (m.length / 64))
  live_eq : Memory.readList (m.length % 64) 0 s.buf = some (m.drop (64 * (m.length / 64)))

/-- R72 is the case of a created instance. -/
theorem absorbed_iff_absorbedFrom {m : List Byte} {s : State} :
    Absorbed m s ↔ AbsorbedFrom RunningState.initial 0 m s :=
  ⟨fun ⟨hp, hh, hc, hL, hl⟩ => ⟨hp, hh, hc, hL.trans (BitVec.zero_add _).symm, hl⟩,
    fun ⟨hp, hh, hc, hL, hl⟩ => ⟨hp, hh, hc, hL.trans (BitVec.zero_add _), hl⟩⟩

/-- A state with its live bytes written has taken in those, from the running state and the count it has. -/
theorem absorbedFrom_live {s : State} {live : List Byte} (hp : s.phase = .absorb) (hc : s.curlen.toNat ≤ 63)
    (hl : Memory.readList s.curlen.toNat 0 s.buf = some live) : AbsorbedFrom s.h s.length live s := by
  have hlen := Memory.length_of_readList hl
  have hdiv : live.length / 64 = 0 := by omega
  have hmod : live.length % 64 = s.curlen.toNat := by omega
  refine ⟨hp, ?_, hmod.symm, ?_, ?_⟩
  · rw [hdiv, compressBlocks_zero]
  · rw [hdiv]
    exact (BitVec.add_zero _).symm
  · rw [hdiv, hmod, hl, Nat.mul_zero, List.drop_zero]

theorem Inv.absorbedFrom_live {s : State} (h : Inv s) (hp : s.phase = .absorb) :
    ∃ live, live.length = s.curlen.toNat ∧ AbsorbedFrom s.h s.length live s := by
  obtain ⟨live, hl⟩ := Option.isSome_iff_exists.1 (h.live_written hp)
  exact ⟨live, Memory.length_of_readList hl, Machine.absorbedFrom_live hp (h.curlen_absorb hp) hl⟩

/-- The blocks of `m` followed by `x`: those of `m`, then those that the tail of `m` makes with `x`. -/
theorem compressBlocks_append_tail (h0 : RunningState) (m x : List Byte) :
    compressBlocks ((m.length % 64 + x.length) / 64) (compressBlocks (m.length / 64) h0 m)
        (m.drop (64 * (m.length / 64)) ++ x) =
      compressBlocks ((m ++ x).length / 64) h0 (m ++ x) := by
  have hle : 64 * (m.length / 64) ≤ m.length := Nat.mul_div_le _ _
  have hcount : (m ++ x).length / 64 = m.length / 64 + (m.length % 64 + x.length) / 64 := by
    rw [List.length_append]; omega
  rw [hcount, compressBlocks_add, compressBlocks_append _ hle, List.drop_append_of_le_length hle]

/-- `INGEST` takes the next `len` bytes of `DIN` in, after those already taken in; of the rest it changes `DIN` only,
and of `BUF` only what its two paths write. -/
theorem exec_ingest_of_absorbedFrom {h0 : RunningState} {l0 : DWord} {m : List Byte} {s : State} {len : Nat}
    (ha : AbsorbedFrom h0 l0 m s) (hf : s.fault = false) (hlen : len ≤ s.din.length) :
    ∃ t, exec (.ingest len) s = .next t ∧ AbsorbedFrom h0 l0 (m ++ s.din.take len) t ∧
      t = { s with h := t.h, buf := t.buf, curlen := t.curlen, length := t.length, din := s.din.drop len } ∧
      (∀ i, ¬ ingestWrites s.curlen.toNat len i → Memory.read i t.buf = Memory.read i s.buf) ∧
      (Memory.wf s.buf = true → Memory.wf t.buf = true) := by
  obtain ⟨hp, hh, hc, hL, hl⟩ := ha
  have hn : (s.din.take len).length = len := List.length_take_of_le hlen
  obtain ⟨b, hloop, hlive, hframe, hwf⟩ := ingestLoop_spec (fuel := len + 1) (data := s.din.take len)
    (s := { s with din := s.din.drop len }) (live := m.drop (64 * (m.length / 64)))
    (by omega) (by show s.curlen.toNat ≤ 63; omega) (by rw [← hl, ← hc])
  simp only [hn, hc] at hloop hlive hframe
  have hdiv : (m ++ s.din.take len).length / 64 = m.length / 64 + (m.length % 64 + len) / 64 := by
    rw [List.length_append, hn]; omega
  have hmod : (m ++ s.din.take len).length % 64 = (m.length % 64 + len) % 64 := by
    rw [List.length_append, hn]; omega
  have hexec := exec_ingest_of_le hf hp hlen
  rw [hloop, outcomeOf_ok] at hexec
  refine ⟨_, hexec, ⟨hp, ?_, ?_, ?_, ?_⟩, rfl, ?_, hwf⟩
  · rw [← compressBlocks_append_tail, hn, ← hh]
  · rw [hmod]
    exact Nat.mod_eq_of_lt (by omega)
  · rw [hdiv, Nat.mul_add, BitVec.ofNat_add, ← BitVec.add_assoc, ← hL]
  · rw [hmod, hlive, hdiv, Nat.mul_add, ← List.drop_drop,
      List.drop_append_of_le_length (Nat.mul_div_le _ _)]
  · rw [hc]
    exact hframe

theorem exec_ingest_of_absorbed {m : List Byte} {s : State} {len : Nat} (ha : Absorbed m s) (hf : s.fault = false)
    (hlen : len ≤ s.din.length) :
    ∃ t, exec (.ingest len) s = .next t ∧ Absorbed (m ++ s.din.take len) t ∧
      t = { s with h := t.h, buf := t.buf, curlen := t.curlen, length := t.length, din := s.din.drop len } := by
  obtain ⟨t, ht, ha', hrest, -, -⟩ := exec_ingest_of_absorbedFrom (absorbed_iff_absorbedFrom.1 ha) hf hlen
  exact ⟨t, ht, absorbed_iff_absorbedFrom.2 ha', hrest⟩

/-- Two instances that took in the same bytes from the same start differ in stale bytes only. -/
theorem AbsorbedFrom.sameButStale {h0 : RunningState} {l0 : DWord} {m : List Byte} {s t : State}
    (hs : AbsorbedFrom h0 l0 m s) (ht : AbsorbedFrom h0 l0 m t)
    (hrest : { s with h := t.h, buf := t.buf, curlen := t.curlen, length := t.length } = t) : SameButStale s t := by
  have hcur : s.curlen = t.curlen := BitVec.eq_of_toNat_eq (hs.curlen_eq.trans ht.curlen_eq.symm)
  refine ⟨?_, fun _ => ?_⟩
  · rw [← hs.h_eq.trans ht.h_eq.symm, ← hcur, ← hs.length_eq.trans ht.length_eq.symm] at hrest
    exact hrest
  · rw [hs.curlen_eq, hs.live_eq, ht.live_eq]

/-- An `INGEST` of no bytes answers the state it found, whatever `CURLEN` is. -/
theorem exec_ingest_zero {s : State} (hf : s.fault = false) (hp : s.phase = .absorb) :
    exec (.ingest 0) s = .next s := by
  rw [exec_ingest_of_le hf hp (Nat.zero_le _), List.take_zero, ingestLoop_nil, outcomeOf_ok, List.drop_zero]

/-- `INGEST` keeps the invariant: `LENGTH` grows by whole blocks, and the bytes of the tail are live. -/
theorem exec_ingest_of_inv {s : State} {len : Nat} (h : Inv s) (hf : s.fault = false) (hp : s.phase = .absorb)
    (hlen : len ≤ s.din.length) : ∃ t, exec (.ingest len) s = .next t ∧ Inv t := by
  obtain ⟨live, -, ha⟩ := h.absorbedFrom_live hp
  obtain ⟨t, ht, ⟨hp', -, hc, hL, hl⟩, hrest, -, hwf⟩ := exec_ingest_of_absorbedFrom ha hf hlen
  have hblocks := h.length_blocks hp
  have hLnat := congrArg BitVec.toNat hL
  rw [BitVec.toNat_add, BitVec.toNat_ofNat] at hLnat
  have hfault : t.fault = s.fault := by rw [hrest]
  have hfcode : t.fcode = s.fcode := by rw [hrest]
  have hnone : s.fcode = .none := h.fault_fcode.1 hf
  refine ⟨t, ht, {
    buf_wf := hwf h.buf_wf
    fault_fcode := by rw [hfault, hfcode]; exact h.fault_fcode
    usage_done := fun hu => by rw [hfcode, hnone] at hu; cases hu
    length_bytes := by omega
    length_blocks := fun _ => by omega
    curlen_absorb := fun _ => by omega
    live_written := fun _ => by rw [hc, hl]; rfl
    curlen_done := fun hd => by rw [hp'] at hd; cases hd
    block_written := fun hd => by rw [hp'] at hd; cases hd }⟩

end Sys2Proof.Machine

open Sys2Proof Sys2Proof.Machine

/-- Settles O27: R72 is the general closed form from the initial constants and a count of 0. -/
theorem ingestExtendsTheAbsorbedMessage : Obligations.IngestExtendsTheAbsorbedMessage := by
  intro s m len ha hf hlen
  obtain ⟨t, ht, ha', hrest⟩ := exec_ingest_of_absorbed ha hf hlen
  exact ⟨t, ht, ha', congrArg State.din hrest, by rw [hrest]⟩

/-- Settles O26, by the closed form from the live bytes that the invariant has written. -/
theorem ingestCompletesWithItsFrame : Obligations.IngestCompletesWithItsFrame := by
  intro s len hinv hf hp hlen
  obtain ⟨live, hlive, ha⟩ := hinv.absorbedFrom_live hp
  obtain ⟨t, ht, ⟨-, hh, hc, hL, -⟩, hrest, hframe, -⟩ := exec_ingest_of_absorbedFrom ha hf hlen
  rw [List.length_append, hlive, List.length_take_of_le hlen] at hh hc hL
  refine ⟨t, ht, hc, hL, congrArg State.din hrest, hframe, fun hfit => ?_, by rw [hrest]⟩
  rw [hh, Nat.div_eq_of_lt hfit, compressBlocks_zero]

/-- Settles O28: both ways take in the same bytes. -/
theorem chunkingInvariance : Obligations.ChunkingInvariance := by
  intro s m n hinv hf hp hlen
  obtain ⟨live, -, ha⟩ := hinv.absorbedFrom_live hp
  obtain ⟨t, ht, hat, hrest, -, -⟩ := exec_ingest_of_absorbedFrom ha hf (len := m) (by omega)
  have hdin : t.din = s.din.drop m := congrArg State.din hrest
  have hft : t.fault = false := (congrArg State.fault hrest).trans hf
  obtain ⟨u, hu, hau, hrestu, -, -⟩ := exec_ingest_of_absorbedFrom hat hft (len := n)
    (by rw [hdin, List.length_drop]; omega)
  obtain ⟨v, hv, hav, hrestv, -, -⟩ := exec_ingest_of_absorbedFrom ha hf (len := m + n) hlen
  rw [hdin, List.append_assoc, ← List.take_add] at hau
  refine ⟨t, u, v, ht, hu, hv, hau.sameButStale hav ?_⟩
  rw [hrestu, hrestv, hrest]
  simp only [List.drop_drop]

/-- Settles O23: the loop has nothing to consume. -/
theorem ingestOfNothingChangesNothing : Obligations.IngestOfNothingChangesNothing := fun _ => exec_ingest_zero

/-- Settles O6: the direct path takes the one block, and an `INGEST` of nothing is left. -/
theorem add64WrapsModuloTwoToThe64 : Obligations.Add64WrapsModuloTwoToThe64 := by
  refine ⟨toNat_add64, fun s hf hp hc hlen => ?_⟩
  refine ⟨_, (exec_ingest_of_direct hf hp hc le_rfl hlen).trans (exec_ingest_zero hf hp), ?_, hf, rfl, hc⟩
  exact toNat_add64 s.length 512

end

