-- ==== Sys2Proof/Proofs/Finalization.lean ====
section
/-! PROOFS. Finalization.lean: the three finalizing commands, through FINALIZE (42_finalizer.md section 2, 43_hex.md
section 2), and the instance they leave (70_reset_and_hazards.md section 3). -/

namespace Sys2Proof.Machine

/-- A command that runs FINALIZE, with the form it emits the digest in (R82, R89, R90). -/
def Finalizes (i : Instr) (render : List Byte → List Byte) : Prop :=
  (i = .digest ∧ render = (fun d => d)) ∨ (i = .digestHex ∧ render = hexBytes false) ∨
    (i = .digestHexUc ∧ render = hexBytes true)

/-- R81: where FINALIZE has a result, the command emits the digest of the new running state. -/
theorem exec_of_finalizeState {i : Instr} {render : List Byte → List Byte} {s t : State} (hi : Finalizes i render)
    (hf : s.fault = false) (hp : s.phase = .absorb) (ht : finalizeState s = .ok t) :
    exec i s = .next (t.emit (render (serializeDigest t.h))) := by
  rw [exec_of_finalizing hi hf hp, finalizeAndEmit, ht]
  rfl

/-- FINALIZE completes whenever the live bytes are written, whatever the count (R83): `BUF` is then written whole. -/
theorem finalizeState_completes {s : State} {live : List Byte} (hc : s.curlen.toNat ≤ 63)
    (hl : Memory.readList s.curlen.toNat 0 s.buf = some live) :
    ∃ h b, finalizeState s =
        .ok { s with
              h := h, buf := b, curlen := 56, length := s.length + BitVec.ofNat 64 (8 * s.curlen.toNat)
              phase := .done } ∧
      (Memory.readList 64 0 b).isSome = true ∧ (Memory.wf s.buf = true → Memory.wf b = true) := by
  by_cases h55 : s.curlen.toNat ≤ 55
  · obtain ⟨b, hs, hb, -, hwf⟩ := finalizeState_noSpill h55 hl
    exact ⟨_, b, hs, Option.isSome_of_eq_some hb, hwf⟩
  · obtain ⟨b, hs, hb, hwf⟩ := finalizeState_spill (by omega) hc hl
    exact ⟨_, b, hs, Option.isSome_of_eq_some hb, hwf⟩

/-- The invariant carries over a finalizing command: `LENGTH` then counts whole bytes, no longer whole blocks. -/
theorem exec_finalizing_of_inv {i : Instr} {render : List Byte → List Byte} {s : State} (hi : Finalizes i render)
    (h : Inv s) (hf : s.fault = false) (hp : s.phase = .absorb) : ∃ t, exec i s = .next t ∧ Inv t := by
  obtain ⟨live, hl⟩ := Option.isSome_iff_exists.1 (h.live_written hp)
  obtain ⟨h', b, hs, hb, hwf⟩ := finalizeState_completes (h.curlen_absorb hp) hl
  have hbytes := h.length_bytes
  refine ⟨_, exec_of_finalizeState hi hf hp hs, {
    buf_wf := hwf h.buf_wf
    fault_fcode := h.fault_fcode
    usage_done := fun _ => rfl
    length_bytes := by
      show (s.length + BitVec.ofNat 64 (8 * s.curlen.toNat)).toNat % 8 = 0
      rw [BitVec.toNat_add, BitVec.toNat_ofNat]
      omega
    length_blocks := nofun
    curlen_absorb := nofun
    live_written := nofun
    curlen_done := fun _ => rfl
    block_written := fun _ => hb }⟩

/-- A fresh instance has absorbed nothing (R65). -/
theorem absorbed_nil_freshInstance (s : State) : Absorbed [] s.freshInstance := ⟨rfl, rfl, rfl, rfl, rfl⟩

/-- A finalizing command that ran leaves phase `DONE` and raises nothing. -/
theorem done_of_finalizeAndEmit {render : List Byte → List Byte} {s t : State} (h : finalizeAndEmit render s = .ok t) :
    t.phase = .done ∧ t.fault = s.fault := by
  rw [finalizeAndEmit_frame h]
  exact ⟨rfl, rfl⟩

/-- A finalizing command on an instance that has absorbed `m` emits the digest of `m` in its form (R83, R85). -/
theorem exec_finalizing_of_absorbed {m : List Byte} {s : State} (ha : Absorbed m s) (hf : s.fault = false) :
    ∃ b, (Memory.readList 64 0 b).isSome = true ∧
      ∀ {i : Instr} {render : List Byte → List Byte}, Finalizes i render →
        exec i s = .next { s with
          h := sha1Words m, buf := b, curlen := 56, length := BitVec.ofNat 64 (8 * m.length), phase := .done
          dout := s.dout ++ render (sha1 m) } := by
  obtain ⟨b, hs, hb, -⟩ := finalizeState_of_absorbed ha
  exact ⟨b, hb, fun hi => exec_of_finalizeState hi hf ha.absorbing hs⟩

/-- The obligations name a finalizing command with the bytes it emits of one digest. -/
theorem exists_finalizes {i : Instr} {text digest : List Byte}
    (h : (i = .digest ∧ text = digest) ∨ (i = .digestHex ∧ text = hexBytes false digest) ∨
      (i = .digestHexUc ∧ text = hexBytes true digest)) : ∃ render, Finalizes i render ∧ text = render digest := by
  obtain ⟨hi, ht⟩ | ⟨hi, ht⟩ | ⟨hi, ht⟩ := h
  · exact ⟨fun d => d, .inl ⟨hi, rfl⟩, ht⟩
  · exact ⟨hexBytes false, .inr (.inl ⟨hi, rfl⟩), ht⟩
  · exact ⟨hexBytes true, .inr (.inr ⟨hi, rfl⟩), ht⟩

theorem finalizes_of_mem {i : Instr} (h : i = .digest ∨ i = .digestHex ∨ i = .digestHexUc) :
    ∃ render, Finalizes i render := by
  obtain hi | hi | hi := h
  · exact ⟨fun d => d, .inl ⟨hi, rfl⟩⟩
  · exact ⟨hexBytes false, .inr (.inl ⟨hi, rfl⟩)⟩
  · exact ⟨hexBytes true, .inr (.inr ⟨hi, rfl⟩)⟩

end Sys2Proof.Machine

open Sys2Proof Sys2Proof.Machine

/-- Settles O31, by the two shapes of FINALIZE, followed by the emission. -/
theorem finalizePadsAndCompresses : Obligations.FinalizePadsAndCompresses := by
  intro s live len hf hp hl hlen i render hi
  have hL : s.length + BitVec.ofNat 64 (8 * s.curlen.toNat) = len := by rw [hlen, Nat.mul_comm]; rfl
  refine ⟨?noSpill, ?spill⟩
  case noSpill =>
    rintro hc block h rfl rfl
    obtain ⟨b, hs, hb, hkeep, -⟩ := finalizeState_noSpill hc hl
    rw [hL] at hs hb
    exact ⟨b, hb, hkeep, exec_of_finalizeState hi hf hp hs⟩
  case spill =>
    rintro ⟨hc, hc'⟩ first last h rfl rfl rfl
    obtain ⟨b, hs, hb, -⟩ := finalizeState_spill hc hc' hl
    rw [hL] at hs hb
    exact ⟨b, hb, exec_of_finalizeState hi hf hp hs⟩

/-- Settles O32: FINALIZE compresses what the absorbed tail lacks of the padded message. -/
theorem finalizingCommandsEmitTheDigest : Obligations.FinalizingCommandsEmitTheDigest := by
  intro s m ha hf
  obtain ⟨b, hb, hexec⟩ := exec_finalizing_of_absorbed ha hf
  refine ⟨b, hb, fun i text h => ?_⟩
  obtain ⟨render, hi, rfl⟩ := exists_finalizes h
  exact hexec hi

/-- Settles O33: the command left phase `DONE` and no fault, where only `INIT` is admitted. -/
theorem finalizedInstanceTakesOnlyInit : Obligations.FinalizedInstanceTakesOnlyInit := by
  intro s t i hf hp hi ht
  obtain ⟨render, hi⟩ := finalizes_of_mem hi
  rw [exec_of_finalizing hi hf hp] at ht
  obtain ⟨hdone, hfault⟩ := done_of_finalizeAndEmit (outcomeOf_eq_next.1 ht)
  rw [hf] at hfault
  exact ⟨fun j hj => exec_of_done hj hfault hdone,
    _, exec_init_of_not_fault hfault, rfl, absorbed_nil_freshInstance t, rfl, rfl⟩

/-- Settles O58: a digest is five words of four bytes, and COMPRESS reads 64 bytes of `BUF` or stops. -/
theorem constantsAreTheDigestAndBlockSizes : Obligations.ConstantsAreTheDigestAndBlockSizes := by
  refine ⟨rfl, rfl, length_serializeDigest, ?emitted, ?read, ?unwritten⟩
  case emitted =>
    intro s t hf hp ht
    obtain ⟨out, hout, hlen⟩ := exec_dout ht
    rw [if_pos ⟨hf, .inr hp⟩] at hlen
    rw [hout, List.length_append, hlen]
    rfl
  case read =>
    intro s block hb
    exact ⟨Memory.length_of_readList hb, State.compressBuf_of_readList hb⟩
  case unwritten =>
    intro s hb
    rw [State.compressBuf, hb]

end

