-- ==== Sys2Proof/Proofs/Steps.lean ====
section
/-! PROOFS. Steps.lean: the invariant of 10_state.md section 7 over commands and steps, the order of the checks
(60_exceptions.md section 3), the acts of the host, and several blocks. -/

namespace Sys2Proof.Machine

/-! ### What keeps the invariant -/

/-- The invariant speaks of the instance and its fault, not of the streams and the ports. -/
theorem Inv.withPorts {s : State} (h : Inv s) (din dout : List Byte) (cmd : Option Word) (host : List HostAction)
    (cp : Nat) : Inv { s with din := din, dout := dout, cmd := cmd, host := host, cp := cp } :=
  { h with }

theorem Inv.fcode_of_not_fault {s : State} (h : Inv s) (hf : s.fault = false) : s.fcode = .none := h.fault_fcode.1 hf

theorem Inv.raise {s : State} {code : FaultCode} (h : Inv s) (hcode : code ≠ .none)
    (hdone : code = .usageViolation → s.phase = .done) : Inv (s.raise code) :=
  { h with
    fault_fcode := ⟨nofun, fun hc => absurd hc hcode⟩
    usage_done := hdone }

/-- A fresh instance on an engine whose fault register agrees with its code, without a `UsageViolation`. -/
theorem inv_freshInstance {s : State} (hf : s.fault = false ↔ s.fcode = .none) (hu : s.fcode ≠ .usageViolation) :
    Inv s.freshInstance where
  buf_wf := rfl
  fault_fcode := hf
  usage_done := fun h => absurd h hu
  length_bytes := rfl
  length_blocks := fun _ => rfl
  curlen_absorb := fun _ => Nat.zero_le 63
  live_written := fun _ => rfl
  curlen_done := nofun
  block_written := nofun

theorem inv_reset : Inv State.reset := inv_freshInstance (s := State.reset) (by decide) (by decide)

theorem Inv.resetEngine (s : State) : Inv s.resetEngine := by
  rw [State.resetEngine_eq]
  exact inv_reset.withPorts _ _ _ _ _

/-! ### A command from a state that meets the invariant -/

theorem exec_ingest_of_lt {s : State} {len : Nat} (hf : s.fault = false) (hp : s.phase = .absorb)
    (h : s.din.length < len) : exec (.ingest len) s = .fault .stuckPayloadShort :=
  (admitted_of_absorb _ hf hp).trans (congrArg outcomeOf (ingestBody_of_lt h))

/-- Every command completes and keeps the invariant, but for an `INGEST` that waits for its payload (R107). -/
theorem exec_of_inv (i : Instr) {s : State} (h : Inv s) :
    (∃ t, exec i s = .next t ∧ Inv t) ∨
      (s.fault = false ∧ s.phase = .absorb ∧ s.din.length < takenCount i ∧ exec i s = .fault .stuckPayloadShort) := by
  cases hf : s.fault with
  | true => exact .inl ⟨s, exec_of_fault i hf, h⟩
  | false =>
    have hnone := h.fcode_of_not_fault hf
    by_cases hi : i = .init
    · subst hi
      exact .inl ⟨_, exec_init_of_not_fault hf, inv_freshInstance h.fault_fcode (by rw [hnone]; nofun)⟩
    cases hp : s.phase with
    | done => exact .inl ⟨_, exec_of_done hi hf hp, h.raise nofun fun _ => hp⟩
    | absorb =>
      cases i with
      | init => exact absurd rfl hi
      | ingest len =>
        by_cases hlen : len ≤ s.din.length
        · exact .inl (exec_ingest_of_inv h hf hp hlen)
        · exact .inr ⟨rfl, rfl, Nat.not_le.1 hlen, exec_ingest_of_lt hf hp (Nat.not_le.1 hlen)⟩
      | digest => exact .inl (exec_finalizing_of_inv (.inl ⟨rfl, rfl⟩) h hf hp)
      | digestHex => exact .inl (exec_finalizing_of_inv (.inr (.inl ⟨rfl, rfl⟩)) h hf hp)
      | digestHexUc => exact .inl (exec_finalizing_of_inv (.inr (.inr ⟨rfl, rfl⟩)) h hf hp)

theorem exec_keeps_inv {i : Instr} {s t : State} (h : Inv s) (ht : exec i s = .next t) : Inv t := by
  obtain ⟨u, hu, hinv⟩ | ⟨-, -, -, hstuck⟩ := exec_of_inv i h
  · rwa [Host.Outcome.next.inj (ht.symm.trans hu)]
  · rw [hstuck] at ht
    cases ht

/-! ### A step keeps the invariant -/

theorem runCommand_keeps_inv {w : Word} {s t : State} (h : Inv s) (ht : runCommand w s = .next t) : Inv t := by
  have htake : Inv s.takeCommand := h.withPorts _ _ _ _ _
  obtain ⟨-, rfl⟩ | ⟨-, -, rfl⟩ | ⟨-, i, -, hi⟩ := runCommand_cases ht
  · exact htake
  · exact htake.raise nofun nofun
  · exact exec_keeps_inv htake hi

theorem hostStep_keeps_inv {s t : State} (h : Inv s) (ht : hostStep s = .next t) : Inv t := by
  obtain ⟨-, -, rfl⟩ | ⟨bytes, rest, -, rfl⟩ | ⟨rest, -, rfl⟩ | ⟨w, rest, -, -, rfl⟩ := hostStep_cases ht
  · exact h
  · exact h.withPorts _ _ _ _ _
  · exact (Inv.resetEngine s).withPorts _ _ _ _ _
  · exact h.withPorts _ _ _ _ _

theorem step_keeps_inv {s t : State} (h : Inv s) (ht : step s = .next t) : Inv t := by
  obtain ⟨w, -, hw⟩ | ⟨-, hh⟩ := step_cases ht
  · exact runCommand_keeps_inv h hw
  · exact hostStep_keeps_inv h hh

/-! ### Which steps stop for want of payload -/

theorem bind_ne_stuck {α β : Type} {x : Except Fault α} {f : α → Except Fault β}
    (hx : x ≠ .error .stuckPayloadShort) (hf : ∀ a, f a ≠ .error .stuckPayloadShort) :
    (x >>= f) ≠ .error .stuckPayloadShort := by
  cases x with
  | ok a => exact hf a
  | error e => exact fun h => hx (by cases h; rfl)

theorem Memory.store_ne_stuck (i : Nat) (vs : List Byte) (m : Memory) :
    Memory.store i vs m ≠ .error .stuckPayloadShort := by
  unfold Memory.store
  split <;> nofun

theorem spillIfNeeded_ne_stuck (s : State) : spillIfNeeded s ≠ .error .stuckPayloadShort := by
  unfold spillIfNeeded
  split
  · exact bind_ne_stuck (State.appendBuf_ne_stuck _ _) fun _ =>
      bind_ne_stuck (State.compressBuf_ne_stuck _) fun _ => nofun
  · nofun

theorem finishBlock_ne_stuck (s : State) : finishBlock s ≠ .error .stuckPayloadShort :=
  bind_ne_stuck (State.appendBuf_ne_stuck _ _) fun _ =>
    bind_ne_stuck (bind_ne_stuck (Memory.store_ne_stuck _ _ _) fun _ => nofun) State.compressBuf_ne_stuck

/-- FINALIZE takes nothing from `DIN`. -/
theorem finalizeAndEmit_ne_stuck (render : List Byte → List Byte) (s : State) :
    finalizeAndEmit render s ≠ .error .stuckPayloadShort :=
  bind_ne_stuck
    (bind_ne_stuck (State.appendBuf_ne_stuck _ _) fun _ =>
      bind_ne_stuck (spillIfNeeded_ne_stuck _) fun _ => bind_ne_stuck (finishBlock_ne_stuck _) fun _ => nofun)
    fun _ => nofun

theorem ingestBody_ne_stuck {len : Nat} {s : State} (h : len ≤ s.din.length) :
    ingestBody len s ≠ .error .stuckPayloadShort := by
  rw [ingestBody_of_le h]
  exact ingestLoop_ne_stuck _ _ _

theorem admitted_ne_stuck {s : State} {body : Except Fault State} (h : body ≠ .error .stuckPayloadShort) :
    admitted s body ≠ .fault .stuckPayloadShort := by
  unfold admitted unlessFaulted
  split
  · nofun
  split
  · nofun
  cases body with
  | ok t => nofun
  | error f => exact fun hf => h (by cases hf; rfl)

/-- A command that finds its payload does not wait (R107). -/
theorem exec_ne_stuck {i : Instr} {s : State} (h : takenCount i ≤ s.din.length) :
    exec i s ≠ .fault .stuckPayloadShort := by
  cases i with
  | init =>
    show unlessFaulted s _ ≠ _
    unfold unlessFaulted
    split <;> nofun
  | ingest len => exact admitted_ne_stuck (ingestBody_ne_stuck h)
  | digest => exact admitted_ne_stuck (finalizeAndEmit_ne_stuck _ s)
  | digestHex => exact admitted_ne_stuck (finalizeAndEmit_ne_stuck _ s)
  | digestHexUc => exact admitted_ne_stuck (finalizeAndEmit_ne_stuck _ s)

/-! ### The order of the checks, a case each -/

/-- R104: a decoded command with its payload there is taken and run. -/
theorem step_of_runnable {s : State} {w : Word} {i : Instr} (hf : s.fault = false) (hc : s.cmd = some w)
    (hd : decode w = .ok i) (hpay : takenCount i ≤ s.din.length) : step s = exec i s.takeCommand := by
  rw [step_of_cmd hc, runCommand_of_ok hf hd, hostStepIfStuck_of_ne (exec_ne_stuck (s := s.takeCommand) hpay)]

theorem step_of_done {s : State} {w : Word} {i : Instr} (hf : s.fault = false) (hc : s.cmd = some w)
    (hd : decode w = .ok i) (hi : i ≠ .init) (hp : s.phase = .done) :
    step s = .next (s.takeCommand.raise .usageViolation) := by
  rw [step_of_cmd hc, runCommand_of_ok hf hd, exec_of_done (s := s.takeCommand) hi hf hp]
  rfl

theorem absorb_of_ne_done {p : Phase} (h : p ≠ .done) : p = .absorb := by
  cases p with
  | absorb => rfl
  | done => exact absurd rfl h

/-- Only an `INGEST` can be short of payload. -/
theorem eq_ingest_of_short {i : Instr} {n : Nat} (h : n < takenCount i) : i = .ingest (takenCount i) := by
  cases i with
  | ingest len => rfl
  | _ => exact absurd h (Nat.not_lt_zero n)

theorem awaitsHost_of_short {s : State} {w : Word} {i : Instr} (hf : s.fault = false) (hp : s.phase = .absorb)
    (hc : s.cmd = some w) (hd : decode w = .ok i) (hpay : s.din.length < takenCount i) : s.AwaitsHost :=
  .inr ⟨hf, hp, w, takenCount i, hc, hd.trans (congrArg _ (eq_ingest_of_short hpay)), hpay⟩

/-! ### The acts of the host -/

theorem hostStep_of_supply {s : State} {bytes : List Byte} {rest : List HostAction}
    (h : s.host = .supply bytes :: rest) : hostStep s = .next { s with din := s.din ++ bytes, host := rest } := by
  simp only [hostStep, h]

theorem hostStep_of_issue {s : State} {w : Word} {rest : List HostAction} (hc : s.cmd = none)
    (h : s.host = .issue w :: rest) : hostStep s = .next { s with cmd := some w, host := rest } := by
  simp only [hostStep, h, hc, Option.isNone_none, if_true]

/-- R116: a second word is refused while the first is pending. -/
theorem hostStep_of_overlap {s : State} {w v : Word} {rest : List HostAction} (hc : s.cmd = some w)
    (h : s.host = .issue v :: rest) : hostStep s = .refused .overlappingCommand := by
  simp [hostStep, h, hc]

theorem hostStep_of_idle {s : State} (hc : s.cmd = none) (h : s.host = []) : hostStep s = .next s := by
  simp [hostStep, h, hc]

/-- R107: a waiting word and a host that does nothing more. -/
theorem hostStep_of_stuck {s : State} {w : Word} (hc : s.cmd = some w) (h : s.host = []) :
    hostStep s = .fault .stuckPayloadShort := by
  simp [hostStep, h, hc]

/-- The host's acts stop for want of payload or not at all. -/
theorem hostStep_fault {s : State} {f : Fault} (h : hostStep s = .fault f) : f = .stuckPayloadShort := by
  unfold hostStep at h
  split at h
  · split at h <;> cases h
    rfl
  · cases h
  · cases h
  · split at h <;> cases h

theorem runCommand_fault_of_inv {w : Word} {s : State} {f : Fault} (hinv : Inv s) (h : runCommand w s = .fault f) :
    f = .stuckPayloadShort := by
  cases hf : s.fault with
  | true => rw [runCommand_of_fault w hf] at h; cases h
  | false =>
    cases hd : decode w with
    | error e => rw [runCommand_of_error hf hd] at h; cases h
    | ok i =>
      rw [runCommand_of_ok hf hd] at h
      have htake : Inv s.takeCommand := hinv.withPorts _ _ _ _ _
      obtain ⟨t, ht, -⟩ | ⟨-, -, -, hstuck⟩ := exec_of_inv i htake
      · rw [ht] at h; cases h
      · rw [hstuck] at h; cases h; rfl

/-- From the invariant the only stop of a step is the waiting `INGEST`'s. -/
theorem step_fault_of_inv {s : State} {f : Fault} (hinv : Inv s) (h : step s = .fault f) : f = .stuckPayloadShort := by
  cases hc : s.cmd with
  | none => rw [step_of_no_cmd hc] at h; exact hostStep_fault h
  | some w =>
    rw [step_of_cmd hc] at h
    by_cases hstuck : runCommand w s = .fault .stuckPayloadShort
    · rw [hstuck] at h
      exact hostStep_fault h
    · rw [hostStepIfStuck_of_ne hstuck] at h
      exact runCommand_fault_of_inv hinv h

/-! ### What a command takes from `DIN`, and the phase it leaves -/

theorem exec_din {i : Instr} {s t : State} (h : exec i s = .next t) :
    t.din = if s.fault = false ∧ s.phase = .absorb then s.din.drop (takenCount i) else s.din := by
  obtain ⟨hf, rfl⟩ | ⟨hf, hp, hi, rfl⟩ | ⟨hf, rfl, rfl⟩ | ⟨hf, hp, len, rfl, hb⟩ | ⟨hf, hp, rfl, hb⟩ |
    ⟨hf, hp, rfl, hb⟩ | ⟨hf, hp, rfl, hb⟩ := exec_cases h
  case inl => simp [hf]
  case inr.inl => simp [hp]
  case inr.inr.inl => simp [takenCount]
  case inr.inr.inr.inl => rw [(ingestBody_frame hb).2, if_pos ⟨hf, hp⟩, takenCount]
  all_goals rw [finalizeAndEmit_frame hb, if_pos ⟨hf, hp⟩, takenCount, List.drop_zero]

/-- R19: the phase in which a command leaves an engine that is not faulted. -/
def phaseAfter : Instr → Phase → Phase
  | .init, _ => .absorb
  | .ingest _, p => p
  | .digest, _ => .done
  | .digestHex, _ => .done
  | .digestHexUc, _ => .done

theorem phaseAfter_done {i : Instr} (h : i ≠ .init) : phaseAfter i .done = .done := by
  cases i with
  | init => exact absurd rfl h
  | _ => rfl

theorem exec_phase {i : Instr} {s t : State} (h : exec i s = .next t) :
    t.phase = if s.fault = true then s.phase else phaseAfter i s.phase := by
  obtain ⟨hf, rfl⟩ | ⟨hf, hp, hi, rfl⟩ | ⟨hf, rfl, rfl⟩ | ⟨hf, hp, len, rfl, hb⟩ | ⟨hf, hp, rfl, hb⟩ |
    ⟨hf, hp, rfl, hb⟩ | ⟨hf, hp, rfl, hb⟩ := exec_cases h
  case inl => rw [if_pos hf]
  case inr.inl => simp only [hf, hp, phaseAfter_done hi, State.raise_phase, ite_self]
  case inr.inr.inl => simp only [hf, phaseAfter, State.freshInstance_phase, Bool.false_eq_true, if_false]
  case inr.inr.inr.inl =>
    rw [(ingestBody_frame hb).2]
    simp only [phaseAfter, ite_self]
  all_goals
    rw [finalizeAndEmit_frame hb]
    simp only [hf, phaseAfter, Bool.false_eq_true, if_false]

/-! ### Placed words -/

theorem payloadLength_of_ok {w : Word} {i : Instr} (h : decode w = .ok i) : payloadLength w = takenCount i := by
  unfold payloadLength
  rw [h]
  cases i <;> rfl

theorem tableWord_toNat (w : Word) : tableWord 32 w.toNat = w := by
  rw [tableWord, Nat.mod_eq_of_lt w.isLt, BitVec.ofNat_toNat, BitVec.setWidth_eq]

/-- A presented word finds its payload at the head of `DIN`, so the next step runs it. -/
theorem step_presentWord {s : State} {w : Word} {i : Instr} (hf : s.fault = false) (hd : decode w = .ok i) :
    step (s.presentWord w) =
      exec i { s with din := List.replicate (takenCount i) 0x00 ++ s.din, cmd := none, cp := s.cp + 1 } := by
  have hpay : takenCount i ≤ (s.presentWord w).din.length := by
    rw [State.presentWord_din, payloadLength_of_ok hd, List.length_append, List.length_replicate]
    exact Nat.le_add_right _ _
  rw [step_of_runnable (by rwa [State.presentWord_fault]) (State.presentWord_cmd w s) hd hpay]
  simp only [State.presentWord, State.takeCommand, payloadLength_of_ok hd]

/-! ### Several blocks -/

/-- Everything a step of one block can do when it has a next state. -/
theorem stepBlock_cases {k : Nat} {blocks after : List State} (h : stepBlock k blocks = .next after) :
    (blocks[k]? = none ∧ after = blocks) ∨
      ∃ s t, blocks[k]? = some s ∧ step s = .next t ∧ after = blocks.set k t := by
  unfold stepBlock at h
  cases hk : blocks[k]? with
  | none => rw [hk] at h; exact .inl ⟨rfl, (Host.Outcome.next.inj h).symm⟩
  | some s =>
    simp only [hk] at h
    cases hs : step s with
    | next t => simp only [hs] at h; exact .inr ⟨s, t, rfl, hs, (Host.Outcome.next.inj h).symm⟩
    | fault f => simp only [hs] at h; cases h
    | refused r => simp only [hs] at h; cases h

end Sys2Proof.Machine

open Sys2Proof Sys2Proof.Machine

/-- Settles O50, over the words taken from `CMD` and the acts of the host. -/
theorem everyStepKeepsTheInvariant : Obligations.EveryStepKeepsTheInvariant := fun _ _ => step_keeps_inv

/-- Settles O49: a created instance, without a fault. -/
theorem resetMeetsTheInvariant : Obligations.ResetMeetsTheInvariant := inv_reset

/-- Settles O52, by the admission of the command and then its body. -/
theorem everyCommandCompletes : Obligations.EveryCommandCompletes := fun _ i => exec_of_inv i

/-- Settles O51: the only stop from the invariant is another one. -/
theorem noUnwrittenByteIsEverRead : Obligations.NoUnwrittenByteIsEverRead :=
  fun _ hinv => ⟨fun h => (nomatch step_fault_of_inv hinv h), fun h => (nomatch step_fault_of_inv hinv h)⟩

/-- Settles O45, a lemma for each of the five cases. -/
theorem stepFollowsTheCheckOrder : Obligations.StepFollowsTheCheckOrder := by
  intro s w hc
  by_cases hfault : s.fault = true
  · rw [if_pos hfault]
    exact step_of_fault_of_cmd hfault hc
  rw [if_neg hfault]
  have hf := Bool.eq_false_of_not_eq_true hfault
  cases hd : decode w with
  | error e => exact step_of_illegal hf hc hd
  | ok i =>
    simp only []
    by_cases hdone : i ≠ .init ∧ s.phase = .done
    · rw [if_pos hdone]
      exact step_of_done hf hc hd hdone.1 hdone.2
    rw [if_neg hdone]
    by_cases hpay : s.din.length < takenCount i
    · rw [if_pos hpay]
      have hi : i ≠ .init := by rw [eq_ingest_of_short hpay]; nofun
      have hp : s.phase = .absorb := absorb_of_ne_done fun hp => hdone ⟨hi, hp⟩
      exact step_of_awaitsHost (awaitsHost_of_short hf hp hc hd hpay)
    · rw [if_neg hpay]
      exact step_of_runnable hf hc hd (Nat.not_lt.1 hpay)

/-- Settles O46: the word is taken and run, and a stop for want of payload hands the step to the host. -/
theorem stepRunsTheDecodedCommand : Obligations.StepRunsTheDecodedCommand := by
  intro s w i hf hc hd
  have hstep : step s = hostStepIfStuck s (exec i s.takeCommand) := by rw [step_of_cmd hc, runCommand_of_ok hf hd]
  exact ⟨fun hne => hstep.trans (hostStepIfStuck_of_ne hne), fun hstuck => hstep.trans (congrArg _ hstuck)⟩

/-- Settles O47: the word decodes to its command, whose payload is placed with it. -/
theorem placedWordRunsItsCommand : Obligations.PlacedWordRunsItsCommand := by
  intro s i hi hf
  have hd := decode_encode hi
  rw [State.withFetchWord, decodeTableWord, tableWord_toNat, hd]
  exact ⟨rfl, step_presentWord hf hd⟩

/-- Settles O48, a case of the host's next act each. -/
theorem hostActsWhenNoCommandIsPending : Obligations.HostActsWhenNoCommandIsPending := by
  intro s hc
  rw [step_of_no_cmd hc]
  exact ⟨hostStep_of_idle hc, fun _ _ => hostStep_of_supply, fun _ _ => hostStep_of_issue hc⟩

/-- Settles O29: the word waits while the host acts, and runs once its payload is there. -/
theorem shortPayloadLeavesIngestWaiting : Obligations.ShortPayloadLeavesIngestWaiting := by
  intro s w len hf hp hc hd hlen
  have hwait := step_of_awaitsHost (awaitsHost_of_short hf hp hc hd hlen)
  refine ⟨exec_ingest_of_lt hf hp hlen, fun hh => hwait.trans (hostStep_of_stuck hc hh), fun bytes rest hh => ?_⟩
  refine ⟨hwait.trans (hostStep_of_supply hh), fun henough => ?_⟩
  refine step_of_runnable (s := { s with din := s.din ++ bytes, host := rest }) hf hc hd ?_
  rwa [takenCount, List.length_append]

/-- Settles O59: the step is the host's, and the host presents a word over one that is pending. -/
theorem overlappingWordIsRefused : Obligations.OverlappingWordIsRefused :=
  fun _ _ _ _ _ hf hp hc hd hlen hh =>
    (step_of_awaitsHost (awaitsHost_of_short hf hp hc hd hlen)).trans (hostStep_of_overlap hc hh)

/-- Settles O19, by the one step of a RESET. -/
theorem resetStateIsTheCreatedInstance : Obligations.ResetStateIsTheCreatedInstance :=
  ⟨⟨rfl, rfl, rfl, rfl, rfl, rfl, rfl, Memory.read_nil, rfl, rfl, rfl, rfl, rfl⟩, fun _ _ => step_of_reset⟩

/-- Settles O54, by the frame of each command: only the body of `INGEST` writes `DIN`. -/
theorem onlyIngestTakesFromDin : Obligations.OnlyIngestTakesFromDin := fun _ _ _ => exec_din

/-- Settles O55, by what each command writes and by each act of the host. -/
theorem phaseFollowsTheLifecycle : Obligations.PhaseFollowsTheLifecycle := by
  constructor
  · intro s t i h
    rw [exec_phase h]
    cases i <;> rfl
  · intro s t hw h
    rw [step_of_awaitsHost hw] at h
    obtain ⟨hh, -, rfl⟩ | ⟨bytes, rest, hh, rfl⟩ | ⟨rest, hh, rfl⟩ | ⟨w, rest, hh, -, rfl⟩ := hostStep_cases h <;>
      simp [hh]

/-- Settles O57: the one block that steps is set, the others stand. -/
theorem blocksShareNothing : Obligations.BlocksShareNothing := by
  intro blocks after k h
  obtain ⟨hk, rfl⟩ | ⟨s, t, hk, hs, rfl⟩ := stepBlock_cases h
  · exact ⟨fun _ _ => rfl, fun s t hs _ => absurd (hk.symm.trans hs) nofun⟩
  · refine ⟨fun j hj => List.getElem?_set_ne hj.symm, fun s' t' hs' ht' => ?_⟩
    obtain rfl := Option.some.inj (hk.symm.trans hs')
    obtain rfl := Host.Outcome.next.inj (hs.symm.trans ht')
    exact List.getElem?_set_self (List.getElem?_eq_some_iff.1 hk).1

end

