-- ==== Sys2Proof/Proofs/Assembly.lean ====
section
/-! PROOFS. Assembly.lean: the characters of a digest (43_hex.md section 3) and the host's side: operands, pieces,
program lines (30_encoding.md section 7) and the one-shot forms (44_oneshot.md). -/

namespace Sys2Proof.Machine

/-! ### Hexadecimal characters -/

/-- R88: digits stand from 0x30 up, letters from 0x41 or 0x61. -/
theorem toNat_asciiCode_hexDigit :
    ∀ (v : BitVec 4) (uppercase : Bool), (asciiCode (hexDigit v uppercase)).toNat =
      if v.toNat < 10 then 0x30 + v.toNat else (if uppercase then 0x41 else 0x61) + (v.toNat - 10) := by decide

/-- R91: a character of either case has the value of its digit. -/
theorem hexValue_asciiCode_hexDigit :
    ∀ (v : BitVec 4) (uppercase : Bool), hexValue (asciiCode (hexDigit v uppercase)) = v := by decide

/-- R87: a byte is its two nibbles. -/
theorem append_nibbles (b : Byte) : b.extractLsb' 4 4 ++ b.extractLsb' 0 4 = b := by
  have hb := b.isLt
  apply BitVec.eq_of_toNat_eq
  rw [toNat_append_eq_mul_add, extractLsb'_high_nibble, extractLsb'_low_nibble, BitVec.toNat_ofNat, BitVec.toNat_ofNat]
  omega

/-- The digit values of a text, in either case the same. -/
def nibbles (digest : List Byte) : List (BitVec 4) := digest.flatMap fun b => [b.extractLsb' 4 4, b.extractLsb' 0 4]

theorem hexBytes_eq_map_nibbles (uppercase : Bool) (digest : List Byte) :
    hexBytes uppercase digest = (nibbles digest).map fun v => asciiCode (hexDigit v uppercase) := by
  simp only [hexBytes, toHex, nibbles, List.map_flatMap, hexByte, List.map_cons, List.map_nil]

/-- R91: reading a text back, whatever its case. -/
theorem parseHex_hexBytes (uppercase : Bool) (digest : List Byte) : parseHex (hexBytes uppercase digest) = digest := by
  induction digest with
  | nil => rfl
  | cons b bs ih =>
    rw [hexBytes_cons, parseHex, hexValue_asciiCode_hexDigit, hexValue_asciiCode_hexDigit, append_nibbles, ih]

/-- R91: one digit value in the two cases. -/
theorem hexDigit_cases (v : BitVec 4) {lo up : Byte} (hlo : asciiCode (hexDigit v false) = lo)
    (hup : asciiCode (hexDigit v true) = up) :
    (lo = up ∧ 0x30 ≤ lo.toNat ∧ lo.toNat ≤ 0x39) ∨
      (0x41 ≤ up.toNat ∧ up.toNat ≤ 0x46 ∧ lo.toNat = up.toNat + 0x20) := by
  have hv := v.isLt
  have hlow := toNat_asciiCode_hexDigit v false
  have hupper := toNat_asciiCode_hexDigit v true
  rw [hlo] at hlow
  rw [hup] at hupper
  by_cases hdigit : v.toNat < 10
  · rw [if_pos hdigit] at hlow hupper
    exact .inl ⟨BitVec.eq_of_toNat_eq (hlow.trans hupper.symm), by omega, by omega⟩
  · simp only [if_neg hdigit, Bool.false_eq_true, if_false, if_true] at hlow hupper
    exact .inr ⟨by omega, by omega, by omega⟩

/-! ### The pieces of a long span -/

/-- R97: full pieces and then the last one, which holds what is left: not nothing, unless the span is empty. -/
structure CanonicalSplit (x : List Byte) (full : List (List Byte)) (last : List Byte) : Prop where
  flatten_eq : full.flatten ++ last = x
  full_length : ∀ p ∈ full, p.length = 65535
  last_le : last.length ≤ 65535
  last_pos : full ≠ [] → 1 ≤ last.length

theorem canonicalSplit_of_le {x : List Byte} (h : x.length ≤ 65535) : CanonicalSplit x [] x :=
  ⟨rfl, nofun, h, fun hne => absurd rfl hne⟩

/-- A longer span is a full piece and the split of the rest. -/
theorem CanonicalSplit.cons {x : List Byte} {full : List (List Byte)} {last : List Byte} (hlong : 65535 < x.length)
    (h : CanonicalSplit (x.drop 65535) full last) : CanonicalSplit x (x.take 65535 :: full) last where
  flatten_eq := by rw [List.flatten_cons, List.append_assoc, h.flatten_eq, List.take_append_drop]
  full_length p hp := by
    obtain rfl | hp := List.mem_cons.1 hp
    · exact List.length_take_of_le hlong.le
    · exact h.full_length p hp
  last_le := h.last_le
  last_pos _ := by
    by_cases hfull : full = []
    · have hlast : last = x.drop 65535 := by rw [← h.flatten_eq, hfull]; rfl
      rw [hlast, List.length_drop]
      omega
    · exact h.last_pos hfull

/-- R97: the fuel is enough when there is one for each byte. -/
theorem longPieces_split {fuel : Nat} {x : List Byte} (h : x.length ≤ fuel) :
    ∃ full last, longPieces fuel x = full ++ [last] ∧ CanonicalSplit x full last := by
  induction fuel generalizing x with
  | zero => exact ⟨[], x, rfl, canonicalSplit_of_le (by omega)⟩
  | succ fuel ih =>
    rw [longPieces, Config.maxLen]
    by_cases hlong : 65535 < x.length
    · obtain ⟨full, last, hp, hsplit⟩ := ih (x := x.drop 65535) (by rw [List.length_drop]; omega)
      rw [if_neg (Nat.not_le.2 hlong), hp]
      exact ⟨_, last, rfl, hsplit.cons hlong⟩
    · rw [if_pos (Nat.not_lt.1 hlong)]
      exact ⟨[], x, rfl, canonicalSplit_of_le (Nat.not_lt.1 hlong)⟩

theorem CanonicalSplit.length_eq {x : List Byte} {full : List (List Byte)} {last : List Byte}
    (h : CanonicalSplit x full last) : x.length = 65535 * full.length + last.length := by
  have hsum : full.flatten.length = full.length * 65535 := by
    rw [List.length_flatten, List.map_eq_replicate_iff.2 h.full_length, List.sum_replicate_nat]
  rw [← h.flatten_eq, List.length_append, hsum, Nat.mul_comm]

theorem CanonicalSplit.count_eq {x : List Byte} {full : List (List Byte)} {last : List Byte}
    (h : CanonicalSplit x full last) : full.length + 1 = max 1 ((x.length + 65534) / 65535) := by
  have hlen := h.length_eq
  have hle := h.last_le
  by_cases hfull : full = []
  · rw [hfull, List.length_nil] at hlen ⊢
    omega
  · have hpos := h.last_pos hfull
    omega

theorem CanonicalSplit.le_of_mem {x : List Byte} {full : List (List Byte)} {last p : List Byte}
    (h : CanonicalSplit x full last) (hp : p ∈ full ++ [last]) : p.length ≤ 65535 := by
  obtain hp | hp := List.mem_append.1 hp
  · exact (h.full_length p hp).le
  · rw [List.mem_singleton.1 hp]
    exact h.last_le

theorem flatten_longPieces {fuel : Nat} {x : List Byte} (h : x.length ≤ fuel) : (longPieces fuel x).flatten = x := by
  obtain ⟨full, last, hp, hsplit⟩ := longPieces_split h
  rw [hp, List.flatten_append, List.flatten_singleton, hsplit.flatten_eq]

theorem length_le_of_mem_longPieces {fuel : Nat} {x p : List Byte} (h : x.length ≤ fuel) (hp : p ∈ longPieces fuel x) :
    p.length ≤ 65535 := by
  obtain ⟨full, last, heq, hsplit⟩ := longPieces_split h
  exact hsplit.le_of_mem (heq ▸ hp)

/-! ### What the host sends -/

theorem encode_ingest (len : Nat) : encode (.ingest len) = BitVec.ofNat 32 (0x02000000 + len) :=
  (BitVec.ofNat_add 0x02000000 len).symm

theorem sendIngest_eq (x : List Byte) :
    sendIngest x = [.supply x, .issue (BitVec.ofNat 32 (0x02000000 + x.length))] := by
  rw [sendIngest, sendCommand, encode_ingest]

/-- R53: the codes of a text whose characters all have one. -/
theorem bytes_text {chars : List Char} (h : ∀ c ∈ chars, c.toNat < 128) :
    (SpanOperand.text chars).bytes = some (chars.map asciiCode) := by
  rw [SpanOperand.bytes, if_pos (List.all_eq_true.2 fun c hc => decide_eq_true (h c hc))]

theorem bytes_join {x y : SpanOperand} {bx bv : List Byte} (hx : x.bytes = some bx) (hy : y.bytes = some bv) :
    (SpanOperand.join x y).bytes = some (bx ++ bv) := by
  rw [SpanOperand.bytes, hx, hy]

/-- R53: a span that fits a `LEN` field is sent, a longer one refused. -/
theorem assembleLine_ingest {x : SpanOperand} {bytes : List Byte} (h : x.bytes = some bytes) :
    assembleLine (.ingest x) = if bytes.length ≤ 65535 then some (sendIngest bytes) else none := by
  simp only [assembleLine, h]
  exact if_congr (wellFormed_ingest.trans Nat.lt_succ_iff) rfl rfl

/-! ### One-shot digests -/

/-- R72 over several pieces: they are absorbed in order and leave `DIN` as they are taken. -/
theorem execAll_ingests_of_absorbed {m rest : List Byte} {pieces : List (List Byte)} {s : State} (ha : Absorbed m s)
    (hf : s.fault = false) (hdin : s.din = pieces.flatten ++ rest) :
    ∃ t, execAll (pieces.map fun p => .ingest p.length) s = .next t ∧ Absorbed (m ++ pieces.flatten) t ∧
      t.din = rest ∧ t.fault = false ∧ t.dout = s.dout := by
  induction pieces generalizing m s with
  | nil => exact ⟨s, rfl, by rwa [List.flatten_nil, List.append_nil], hdin, hf, rfl⟩
  | cons p pieces ih =>
    rw [List.flatten_cons, List.append_assoc] at hdin
    obtain ⟨t, ht, hat, hrest⟩ := exec_ingest_of_absorbed ha hf (len := p.length)
      (by rw [hdin, List.length_append]; omega)
    rw [hdin, List.take_left] at hat
    have hdin' : t.din = pieces.flatten ++ rest := by rw [hrest, hdin]; exact List.drop_left
    have hf' : t.fault = false := by rw [hrest]; exact hf
    obtain ⟨u, hu, hau, hudin, huf, hudout⟩ := ih hat hf' hdin'
    refine ⟨u, (execAll_cons_of_next ht).trans hu, ?_, hudin, huf, hudout.trans (by rw [hrest])⟩
    rwa [List.flatten_cons, ← List.append_assoc]

/-- R93 to R95: whatever instance the block held, the digest is that of the span. -/
theorem execAll_oneShot {s : State} {rest : List Byte} {pieces : List (List Byte)} {i : Instr}
    {render : List Byte → List Byte} (hi : Finalizes i render) (hf : s.fault = false)
    (hdin : s.din = pieces.flatten ++ rest) :
    ∃ t, execAll ([.init] ++ pieces.map (fun p => .ingest p.length) ++ [i]) s = .next t ∧
      t.dout = s.dout ++ render (sha1 pieces.flatten) ∧ t.din = rest ∧ t.phase = .done ∧ t.fault = false := by
  obtain ⟨t, ht, ha, htdin, htf, htdout⟩ :=
    execAll_ingests_of_absorbed (absorbed_nil_freshInstance s) (s := s.freshInstance) hf hdin
  obtain ⟨b, -, hexec⟩ := exec_finalizing_of_absorbed ha htf
  have hstart : execAll ([.init] ++ pieces.map (fun p => .ingest p.length)) s = .next t :=
    (execAll_cons_of_next (exec_init_of_not_fault hf)).trans ht
  exact ⟨_, (execAll_append_of_next hstart).trans (execAll_cons_of_next (hexec hi)),
    congrArg (· ++ render (sha1 pieces.flatten)) htdout, htdin, rfl, htf⟩

theorem Finalizes.wellFormed {i : Instr} {render : List Byte → List Byte} (h : Finalizes i render) :
    i.wellFormed = true := by
  obtain ⟨rfl, -⟩ | ⟨rfl, -⟩ | ⟨rfl, -⟩ := h <;> rfl

/-- R98: every command of a one-shot is one some word encodes. -/
theorem wellFormed_of_mem_oneShot {pieces : List (List Byte)} {i j : Instr} (hp : ∀ p ∈ pieces, p.length ≤ 65535)
    (hi : i.wellFormed = true) (hj : j ∈ [Instr.init] ++ pieces.map (fun p => .ingest p.length) ++ [i]) :
    j.wellFormed = true := by
  obtain hj | hj := List.mem_append.1 hj
  · obtain hj | hj := List.mem_append.1 hj
    · rw [List.mem_singleton.1 hj]
      rfl
    · obtain ⟨p, hmem, rfl⟩ := List.mem_map.1 hj
      exact wellFormed_ingest.2 (Nat.lt_succ_of_le (hp p hmem))
  · rwa [List.mem_singleton.1 hj]

end Sys2Proof.Machine

open Sys2Proof Sys2Proof.Machine

/-- Settles O36: a number below 16 is the value of its digit. -/
theorem hexCharacterCodes : Obligations.HexCharacterCodes := by
  intro v uppercase hv
  rw [toNat_asciiCode_hexDigit, BitVec.toNat_ofNat, Nat.mod_eq_of_lt hv]

/-- Settles O37: both texts are made of the same digit values. -/
theorem hexTextsDifferInCaseOnly : Obligations.HexTextsDifferInCaseOnly := by
  intro digest
  refine ⟨length_hexBytes _ _, length_hexBytes _ _, fun j lo up hlo hup => ?_, parseHex_hexBytes _ _,
    parseHex_hexBytes _ _⟩
  rw [hexBytes_eq_map_nibbles, List.getElem?_map, Option.map_eq_some_iff] at hlo hup
  obtain ⟨v, hv, hlo⟩ := hlo
  obtain ⟨v', hv', hup⟩ := hup
  obtain rfl := Option.some.inj (hv.symm.trans hv')
  exact hexDigit_cases v hlo hup

/-- Settles O38: the pieces are full ones and the last, so the length of the span fixes how many. -/
theorem ingestLongSplitsTheSpan : Obligations.IngestLongSplitsTheSpan := by
  intro x
  obtain ⟨full, last, hpieces, hsplit⟩ := longPieces_split (le_refl x.length)
  have hflatten := flatten_longPieces (le_refl x.length)
  have hlen := hsplit.length_eq
  rw [hpieces] at hflatten
  refine ⟨full ++ [last], hflatten, ?count, ?full, ?last, fun p => hsplit.le_of_mem, ?sent⟩
  case count => rw [List.length_append, List.length_singleton, hsplit.count_eq]
  case full =>
    intro k hk
    rw [List.length_append, List.length_singleton] at hk
    have hk' : k < full.length := by omega
    rw [List.getD_append _ _ _ _ hk', List.getD_eq_getElem _ _ hk']
    exact hsplit.full_length _ (List.getElem_mem hk')
  case last =>
    rw [List.getLastD_concat, List.length_append, List.length_singleton, Nat.add_sub_cancel]
    omega
  case sent =>
    rw [sendIngestLong, hpieces]
    exact congrArg (List.flatMap · (full ++ [last])) (funext sendIngest_eq)

/-- Settles O39, an operand form each, and the line of an `INGEST`. -/
theorem assemblerSendsIngest : Obligations.AssemblerSendsIngest := by
  refine ⟨fun _ => bytes_text, fun _ => rfl, fun _ _ => rfl, fun _ _ _ _ => bytes_join, fun x bytes h => ?_⟩
  rw [assembleLine_ingest h, sendIngest_eq]

/-- Settles O40: a pseudo-command sends the bytes of its operand in its fixed sequence. -/
theorem pseudoCommandsExpand : Obligations.PseudoCommandsExpand := by
  rintro x bytes init long hx rfl rfl
  refine ⟨rfl, ?_⟩
  simp only [assembleLine, hx, Option.map_some]
  exact ⟨rfl, trivial, rfl, rfl, rfl⟩

/-- Settles O41: `INIT` leaves an instance that has absorbed nothing, the pieces make it absorb the span. -/
theorem oneShotDigestDependsOnTheSpanAlone : Obligations.OneShotDigestDependsOnTheSpanAlone := by
  refine ⟨?runs, fun x => ⟨flatten_longPieces le_rfl, fun p => length_le_of_mem_longPieces le_rfl⟩⟩
  rintro s x rest pieces i text hf hdin rfl hp htext
  obtain ⟨render, hi, rfl⟩ := exists_finalizes htext
  exact ⟨fun j => wellFormed_of_mem_oneShot hp hi.wellFormed, execAll_oneShot hi hf hdin⟩

end

