-- ==== Sys2Proof/Proofs/StaleBytes.lean ====
section
/-! PROOFS. StaleBytes.lean: bytes of `BUF` at `CURLEN` and above influence nothing (10_state.md section 7, R25). Every
operation is followed through two runs from states that agree below `CURLEN`. -/

namespace Sys2Proof.Machine

/-! ### Two runs side by side -/

/-- Two states that agree on everything but `BUF`, and read the first `n` bytes of `BUF` alike. -/
def AlikeBelow (n : Nat) (s t : State) : Prop :=
  ∃ b, t = { s with buf := b } ∧ Memory.readList n 0 s.buf = Memory.readList n 0 b

/-- Two states that can differ in stale bytes only, in phase `ABSORB`. -/
def LiveAlike (s t : State) : Prop := AlikeBelow s.curlen.toNat s t

/-- Two results alike: states in the relation `R`, or the same stop. -/
inductive ResultsAlike (R : State → State → Prop) : Except Fault State → Except Fault State → Prop where
  | ok {s t : State} (h : R s t) : ResultsAlike R (.ok s) (.ok t)
  | error (f : Fault) : ResultsAlike R (.error f) (.error f)

theorem ResultsAlike.bind {R S : State → State → Prop} {x y : Except Fault State} {f g : State → Except Fault State}
    (h : ResultsAlike R x y) (hfg : ∀ s t, R s t → ResultsAlike S (f s) (g t)) :
    ResultsAlike S (x >>= f) (y >>= g) := by
  cases h with
  | ok h => exact hfg _ _ h
  | error e => exact .error e

theorem ResultsAlike.mono {R S : State → State → Prop} {x y : Except Fault State} (h : ResultsAlike R x y)
    (hRS : ∀ s t, R s t → S s t) : ResultsAlike S x y := by
  cases h with
  | ok h => exact .ok (hRS _ _ h)
  | error f => exact .error f

/-- States alike below `CURLEN` differ in stale bytes only. -/
theorem LiveAlike.sameButStale {s t : State} (h : LiveAlike s t) : SameButStale s t := by
  obtain ⟨b, rfl, hl⟩ := h
  exact ⟨rfl, fun _ => hl⟩

theorem AlikeBelow.sameButStale_of_done {n : Nat} {s t : State} (h : AlikeBelow n s t) (hp : s.phase = .done) :
    SameButStale s t := by
  obtain ⟨b, rfl, -⟩ := h
  exact ⟨rfl, fun habsorb => nomatch hp.symm.trans habsorb⟩

theorem SameButStale.alikeBelow_zero {s t : State} (h : SameButStale s t) : AlikeBelow 0 s t :=
  ⟨t.buf, h.rest_eq.symm, rfl⟩

theorem SameButStale.liveAlike {s t : State} (h : SameButStale s t) (hp : s.phase = .absorb) :
    LiveAlike s t := ⟨t.buf, h.rest_eq.symm, h.live_eq hp⟩

/-- Anything done to a state but to its `BUF` keeps two states alike. -/
theorem AlikeBelow.map {n : Nat} {f : State → State}
    (hf : ∀ (s : State) b, f { s with buf := b } = { f s with buf := b })
    (hbuf : ∀ s, (f s).buf = s.buf) {s t : State} (h : AlikeBelow n s t) : AlikeBelow n (f s) (f t) := by
  obtain ⟨b, rfl, hl⟩ := h
  exact ⟨b, hf s b, by rw [hbuf, hl]⟩

/-! ### The operations -/

/-- Bytes appended to both buffers: they agree on the old live bytes and on the new ones. -/
theorem State.appendBuf_alike (vs : List Byte) {s t : State} (h : LiveAlike s t) :
    ResultsAlike (fun u v => LiveAlike u v ∧ u.curlen.toNat = s.curlen.toNat + vs.length ∧ u.curlen.toNat ≤ 64)
      (s.appendBuf vs) (t.appendBuf vs) := by
  obtain ⟨b, rfl, hl⟩ := h
  by_cases hfit : s.curlen.toNat + vs.length ≤ 64
  · have hcur := curlen_add_toNat hfit
    rw [State.appendBuf_of_le hfit, State.appendBuf_of_le (s := { s with buf := b }) hfit]
    exact .ok ⟨⟨_, rfl, Memory.readList_writeAll_congr vs hl hcur⟩, hcur, hcur.trans_le hfit⟩
  · rw [State.appendBuf_of_gt (Nat.not_le.1 hfit), State.appendBuf_of_gt (s := { s with buf := b }) (Nat.not_le.1 hfit)]
    exact .error _

/-- COMPRESS reads the whole buffer, and writes none of it. -/
theorem State.compressBuf_alike {s t : State} (h : AlikeBelow 64 s t) :
    ResultsAlike (AlikeBelow 64) s.compressBuf t.compressBuf := by
  obtain ⟨b, rfl, hl⟩ := h
  simp only [State.compressBuf, Config.blockSize, ← hl]
  cases Memory.readList 64 0 s.buf with
  | none => exact .error _
  | some block => exact .ok ⟨b, rfl, hl⟩

/-! ### INGEST -/

theorem bufferFull_eq_true_iff {s : State} : s.bufferFull = true ↔ s.curlen = 64 := by simp [State.bufferFull]

/-- A buffer just emptied has no live bytes. -/
theorem AlikeBelow.emptied {n : Nat} {s t : State} (h : AlikeBelow n s t) :
    LiveAlike (s.setCurlen 0) (t.setCurlen 0) := by
  obtain ⟨b, rfl, -⟩ := h
  exact ⟨b, rfl, rfl⟩

theorem flushIfFull_eq (s : State) :
    flushIfFull s =
      if s.bufferFull then s.compressBuf >>= fun t => .ok ((t.addLength 512).setCurlen 0) else .ok s := by
  unfold flushIfFull
  cases s.compressBuf <;> rfl

theorem flushIfFull_alike {s t : State} (h : LiveAlike s t) :
    ResultsAlike LiveAlike (flushIfFull s) (flushIfFull t) := by
  have hfull : t.bufferFull = s.bufferFull := by obtain ⟨b, rfl, -⟩ := h; rfl
  rw [flushIfFull_eq, flushIfFull_eq, hfull]
  by_cases hs : s.bufferFull = true
  · have h64 : AlikeBelow 64 s t := by rwa [LiveAlike, bufferFull_eq_true_iff.1 hs] at h
    rw [if_pos hs, if_pos hs]
    refine (State.compressBuf_alike h64).bind fun u v huv => ?_
    have hcounted : AlikeBelow 64 (u.addLength 512) (v.addLength 512) :=
      huv.map (f := State.addLength 512) (fun _ _ => rfl) (State.addLength_buf 512)
    exact .ok hcounted.emptied
  · rw [if_neg hs, if_neg hs]
    exact .ok h

theorem bufferedPath_eq_bind (data : List Byte) (s : State) :
    bufferedPath data s = s.appendBuf (data.take (bufferedCount data.length s)) >>= flushIfFull := by
  unfold bufferedPath
  cases s.appendBuf (data.take (bufferedCount data.length s)) <;> rfl

theorem bufferedPath_alike (data : List Byte) {s t : State} (h : LiveAlike s t) :
    ResultsAlike LiveAlike (bufferedPath data s) (bufferedPath data t) := by
  have hcount : bufferedCount data.length t = bufferedCount data.length s := by obtain ⟨b, rfl, -⟩ := h; rfl
  rw [bufferedPath_eq_bind, bufferedPath_eq_bind, hcount]
  exact (State.appendBuf_alike _ h).bind fun u v huv => flushIfFull_alike huv.1

theorem directPath_alike (block : List Byte) {s t : State} (h : LiveAlike s t) :
    LiveAlike (directPath block s) (directPath block t) :=
  AlikeBelow.map (f := directPath block) (fun _ _ => rfl) (fun _ => rfl) h

/-- One iteration off the direct path, as a chain. -/
theorem ingestLoop_cons_of_not_direct {fuel : Nat} {b : Byte} {bs : List Byte} {s : State}
    (h : ¬ s.directPathReady (b :: bs).length = true) :
    ingestLoop (fuel + 1) (b :: bs) s =
      bufferedPath (b :: bs) s >>= ingestLoop fuel ((b :: bs).drop (bufferedCount (b :: bs).length s)) := by
  rw [ingestLoop, if_neg h]
  cases bufferedPath (b :: bs) s <;> rfl

theorem ingestLoop_alike (fuel : Nat) (data : List Byte) {s t : State} (h : LiveAlike s t) :
    ResultsAlike LiveAlike (ingestLoop fuel data s) (ingestLoop fuel data t) := by
  induction fuel generalizing data s t with
  | zero =>
    cases data with
    | nil => exact .ok h
    | cons b bs => exact .error _
  | succ fuel ih =>
    cases data with
    | nil => exact .ok h
    | cons b bs =>
      have hcur : t.curlen = s.curlen := by obtain ⟨b, rfl, -⟩ := h; rfl
      have hready : t.directPathReady (b :: bs).length = s.directPathReady (b :: bs).length := by
        rw [State.directPathReady, State.directPathReady, hcur]
      have hcount : bufferedCount (b :: bs).length t = bufferedCount (b :: bs).length s := by
        rw [bufferedCount, bufferedCount, hcur]
      by_cases hdirect : s.directPathReady (b :: bs).length = true
      · rw [ingestLoop, ingestLoop, if_pos hdirect, if_pos (hready.trans hdirect)]
        exact ih _ (directPath_alike _ h)
      · rw [ingestLoop_cons_of_not_direct hdirect, ingestLoop_cons_of_not_direct (by rwa [hready]), hcount]
        exact (bufferedPath_alike _ h).bind fun u v huv => ih _ huv

theorem ingestBody_alike (len : Nat) {s t : State} (h : LiveAlike s t) :
    ResultsAlike SameButStale (ingestBody len s) (ingestBody len t) := by
  have hdin : t.din = s.din := by obtain ⟨b, rfl, -⟩ := h; rfl
  by_cases hlen : len ≤ s.din.length
  · rw [ingestBody_of_le hlen, ingestBody_of_le (by rwa [hdin]), hdin]
    have htaken : LiveAlike { s with din := s.din.drop len } { t with din := s.din.drop len } :=
      AlikeBelow.map (f := fun u => { u with din := s.din.drop len }) (fun _ _ => rfl) (fun _ => rfl) h
    exact (ingestLoop_alike (len + 1) (s.din.take len) htaken).mono fun _ _ => LiveAlike.sameButStale
  · rw [ingestBody_of_lt (Nat.not_le.1 hlen), ingestBody_of_lt (by rw [hdin]; exact Nat.not_le.1 hlen)]
    exact .error _

/-! ### FINALIZE -/

/-- Zero bytes up to a limit fill both buffers alike, up to that limit. -/
theorem zeroFill_alike {limit : Nat} {s t : State} (hlimit : s.curlen.toNat ≤ limit) (h : LiveAlike s t) :
    ResultsAlike (AlikeBelow limit) (zeroFill limit s) (zeroFill limit t) := by
  have hcur : t.curlen = s.curlen := by obtain ⟨b, rfl, -⟩ := h; rfl
  rw [zeroFill, zeroFill, hcur]
  refine (State.appendBuf_alike _ h).mono fun u v huv => ?_
  obtain ⟨halike, hcount, -⟩ := huv
  rw [List.length_replicate, Nat.add_sub_cancel' hlimit] at hcount
  rwa [LiveAlike, hcount] at halike

/-- The message bit count completes both blocks alike. -/
theorem writeLengthField_alike {s t : State} (h : AlikeBelow 56 s t) :
    ResultsAlike (AlikeBelow 64) (writeLengthField s) (writeLengthField t) := by
  obtain ⟨b, rfl, hl⟩ := h
  have hfit : 56 + (store64be s.length).length ≤ 64 := by rw [length_store64be]
  simp only [writeLengthField, Memory.store_of_le _ hfit, bind, Except.bind, pure, Except.pure]
  exact .ok ⟨_, rfl, Memory.readList_writeAll_congr (store64be s.length) hl rfl⟩

theorem finishBlock_alike {s t : State} (hc : s.curlen.toNat ≤ 56) (h : LiveAlike s t) :
    ResultsAlike (AlikeBelow 64) (finishBlock s) (finishBlock t) :=
  (zeroFill_alike hc h).bind fun _ _ h56 => (writeLengthField_alike h56).bind fun _ _ h64 =>
    State.compressBuf_alike h64

/-- After the spill test at most 56 bytes are live, so what is compared below still is what is read. -/
theorem spillIfNeeded_alike {s t : State} (hc : s.curlen.toNat ≤ 64) (h : LiveAlike s t) :
    ResultsAlike (fun u v => LiveAlike u v ∧ u.curlen.toNat ≤ 56) (spillIfNeeded s)
      (spillIfNeeded t) := by
  have hspill : t.mustSpill = s.mustSpill := by obtain ⟨b, rfl, -⟩ := h; rfl
  unfold spillIfNeeded
  rw [hspill]
  by_cases hs : s.mustSpill = true
  · rw [if_pos hs, if_pos hs]
    exact (zeroFill_alike hc h).bind fun _ _ hfilled => (State.compressBuf_alike hfilled).bind fun _ _ h64 =>
      .ok ⟨h64.emptied, Nat.zero_le 56⟩
  · rw [if_neg hs, if_neg hs]
    exact .ok ⟨h, Nat.not_lt.1 fun hlt => hs (decide_eq_true hlt)⟩

theorem countTail_alike {s t : State} (h : LiveAlike s t) :
    LiveAlike (countTail s) (countTail t) :=
  AlikeBelow.map (f := countTail) (fun _ _ => rfl) (fun _ => rfl) h

/-- An appended byte lies within `BUF`. -/
theorem appendTerminator_alike {s t : State} (h : LiveAlike s t) :
    ResultsAlike (fun u v => LiveAlike u v ∧ u.curlen.toNat ≤ 64) (appendTerminator s) (appendTerminator t) :=
  (State.appendBuf_alike [0x80] h).mono fun _ _ ⟨halike, _, hle⟩ => ⟨halike, hle⟩

/-- FINALIZE leaves phase `DONE`, where no byte of `BUF` is live. -/
theorem finalizeState_alike {s t : State} (h : LiveAlike s t) :
    ResultsAlike (fun u v => AlikeBelow 64 u v ∧ u.phase = .done) (finalizeState s) (finalizeState t) :=
  (appendTerminator_alike (countTail_alike h)).bind fun _ _ ⟨hterm, h64⟩ =>
    (spillIfNeeded_alike h64 hterm).bind fun _ _ ⟨hspill, h56⟩ =>
      (finishBlock_alike h56 hspill).bind fun _ _ hblock =>
        .ok ⟨hblock.map (f := fun u => { u with phase := .done }) (fun _ _ => rfl) (fun _ => rfl), rfl⟩

theorem finalizeAndEmit_alike (render : List Byte → List Byte) {s t : State} (h : LiveAlike s t) :
    ResultsAlike SameButStale (finalizeAndEmit render s) (finalizeAndEmit render t) :=
  (finalizeState_alike h).bind fun _ _ ⟨halike, hdone⟩ => .ok <|
    (halike.map (f := fun u => u.emit (render (serializeDigest u.h))) (fun _ _ => rfl)
      (fun _ => rfl)).sameButStale_of_done hdone

/-! ### Commands -/

theorem outcomeOf_alike {x y : Except Fault State} (h : ResultsAlike SameButStale x y) :
    OutcomeSameButStale (outcomeOf x) (outcomeOf y) := by
  cases h with
  | ok h => exact h
  | error f => exact rfl

/-- The admission does not read `BUF`. -/
theorem admitted_alike {f : State → Except Fault State} {s t : State} (h : SameButStale s t)
    (hbody : LiveAlike s t → ResultsAlike SameButStale (f s) (f t)) :
    OutcomeSameButStale (admitted s (f s)) (admitted t (f t)) := by
  have hfault : t.fault = s.fault := by rw [← h.rest_eq]
  have hphase : t.phase = s.phase := by rw [← h.rest_eq]
  cases hf : s.fault with
  | true => rwa [admitted_of_fault _ hf, admitted_of_fault _ (hfault.trans hf)]
  | false =>
    cases hp : s.phase with
    | done =>
      rw [admitted_of_done _ hf hp, admitted_of_done _ (hfault.trans hf) (hphase.trans hp)]
      exact (h.alikeBelow_zero.map (f := State.raise .usageViolation) (fun _ _ => rfl)
        (fun _ => rfl)).sameButStale_of_done hp
    | absorb =>
      rw [admitted_of_absorb _ hf hp, admitted_of_absorb _ (hfault.trans hf) (hphase.trans hp)]
      exact outcomeOf_alike (hbody (h.liveAlike hp))

theorem execInit_alike {s t : State} (h : SameButStale s t) : OutcomeSameButStale (exec .init s) (exec .init t) := by
  have hfault : t.fault = s.fault := by rw [← h.rest_eq]
  cases hf : s.fault with
  | true => rwa [exec_init_of_fault hf, exec_init_of_fault (hfault.trans hf)]
  | false =>
    have hfresh : t.freshInstance = s.freshInstance := by rw [← h.rest_eq]; rfl
    rw [exec_init_of_not_fault hf, exec_init_of_not_fault (hfault.trans hf), hfresh]
    exact ⟨rfl, fun _ => rfl⟩

theorem exec_alike (i : Instr) {s t : State} (h : SameButStale s t) : OutcomeSameButStale (exec i s) (exec i t) := by
  cases i with
  | init => exact execInit_alike h
  | ingest len => exact admitted_alike h (ingestBody_alike len)
  | digest => exact admitted_alike h (finalizeAndEmit_alike _)
  | digestHex => exact admitted_alike h (finalizeAndEmit_alike _)
  | digestHexUc => exact admitted_alike h (finalizeAndEmit_alike _)

end Sys2Proof.Machine

open Sys2Proof Sys2Proof.Machine

/-- Settles O56, a command at a time: no operation reads a byte of `BUF` that is neither live nor just written. -/
theorem staleBytesInfluenceNothing : Obligations.StaleBytesInfluenceNothing := fun _ _ i => exec_alike i

end
